-- ==== Sys2Proof/Word.lean ====
section
/-! DEFINITION. The word types of the engine: its registers and data port (64 bits), its command word (32 bits) and
the byte-wide fields of a command word. -/

namespace Sys2Proof

/-- A 64-bit value: WDATA, RDATA, a lane register, the code register, a mask or a shift (R8, R11). -/
abbrev Data := BitVec 64

/-- A command word, CMD (R57). -/
abbrev CmdWord := BitVec 32

/-- A field of the command word (R57). -/
abbrev Byte := BitVec 8

end Sys2Proof
end

