-- ==== Sys2Proof/Syntax.lean ====
section
/-! DEFINITION. The eleven commands of MBIE64 as terms (R58), the opcodes, and the result of decoding a word. -/

namespace Sys2Proof

/-- The array an RDT reads: the operand `sel` (R89). -/
inductive TableArray where
  | mask    -- sel = 0
  | lshift  -- sel = 1
  | rshift  -- sel = 2
deriving DecidableEq, Repr

/-- The commands, one constructor per row of the opcode table, with the operands of the command word (R58, R60). The
64-bit operand of SETV and SETC is the request's WDATA and no part of the word. -/
inductive Instr where
  | cfg (d b : Byte)                     -- R75: any d, b from 0 to 255
  | pack (n : Byte)                      -- R101: n from 0 to 64
  | unpack                               -- R105
  | spack (n : Byte)                     -- R119: n from 0 to 64
  | sunpack                              -- R121
  | setv (i : Fin 64)                    -- R130
  | getv (i : Fin 64)                    -- R131
  | setc                                 -- R132
  | getc                                 -- R133
  | rdcfg                                -- R88
  | rdt (sel : TableArray) (j : Byte)    -- R89: any j from 0 to 255
deriving DecidableEq, Repr

/-- The assigned opcodes (R58). -/
inductive Opcode where
  | cfg | pack | unpack | spack | sunpack | setv | getv | setc | getc | rdcfg | rdt
deriving DecidableEq, Repr

/-- Why a word is illegal (R62). Every illegal word is answered alike (R151); the name says which clause refused it. -/
inductive Illegal where
  | reservedByte     -- (a) CMD[31:24] is not zero
  | reservedOpcode   -- (b) op is not one of the eleven
  | unusedOperand    -- (c), (d) a byte the format leaves out is not zero
  | laneIndex        -- (e) SETV or GETV with a > 63
  | count            -- (f) PACK or SPACK with a > 64
  | selector         -- (g) RDT with a > 2
deriving DecidableEq, Repr

/-- What decoding a word answers (R65): a command, or Illegal. -/
inductive Decoded where
  | legal (i : Instr)
  | illegal (why : Illegal)
deriving DecidableEq, Repr

end Sys2Proof
end

