-- ==== Sys2Proof/WellFormed.lean ====
section
/-! DEFINITION. The operand range that the types of `Instr` do not carry already: the count of PACK and SPACK is at most
64 (R58, R62(f)). The lane index (R62(e)) is a `Fin 64` and the table selector (R62(g)) a three-valued type. -/

namespace Sys2Proof

/-- The instruction has a legal command word (R62). -/
def Instr.wellFormed : Instr → Bool
  | .cfg _ _ => true
  | .pack n => decide (n.toNat ≤ 64)
  | .unpack => true
  | .spack n => decide (n.toNat ≤ 64)
  | .sunpack => true
  | .setv _ => true
  | .getv _ => true
  | .setc => true
  | .getc => true
  | .rdcfg => true
  | .rdt _ _ => true

end Sys2Proof
end

