-- ==== Sys2Proof/Decode.lean ====
section
/-! DEFINITION. Decoding, total on all 32-bit words, and the encoder. The four byte fields are R57's, the opcodes R58's,
the legality checks R62's and R65's. -/

namespace Sys2Proof

/-- op = CMD[7:0] (R57). -/
def opField (w : CmdWord) : Byte := w.extractLsb' 0 8

/-- a = CMD[15:8] (R57). -/
def aField (w : CmdWord) : Byte := w.extractLsb' 8 8

/-- b = CMD[23:16] (R57). -/
def bField (w : CmdWord) : Byte := w.extractLsb' 16 8

/-- rsv = CMD[31:24], must be zero (R57). -/
def rsvField (w : CmdWord) : Byte := w.extractLsb' 24 8

/-- The opcode values (R58). -/
def Opcode.byte : Opcode → Byte
  | .cfg => 0x01
  | .pack => 0x02
  | .unpack => 0x03
  | .spack => 0x04
  | .sunpack => 0x05
  | .setv => 0x08
  | .getv => 0x09
  | .setc => 0x0A
  | .getc => 0x0B
  | .rdcfg => 0x0C
  | .rdt => 0x0D

/-- All the opcodes, in the order of R58. -/
def Opcode.all : List Opcode :=
  [.cfg, .pack, .unpack, .spack, .sunpack, .setv, .getv, .setc, .getc, .rdcfg, .rdt]

/-- The opcode an op byte stands for; none for a reserved one (R62(b)). -/
def opcodeOf (op : Byte) : Option Opcode := Opcode.all.find? fun o => o.byte == op

/-- sel: 0 = MASK, 1 = LSHIFT, 2 = RSHIFT (R89). -/
def TableArray.selector : TableArray → Byte
  | .mask => 0
  | .lshift => 1
  | .rshift => 2

/-- The array a selector stands for; none above 2 (R62(g)). -/
def tableArrayOf (a : Byte) : Option TableArray :=
  [TableArray.mask, .lshift, .rshift].find? fun t => t.selector == a

/-- Format Z: a and b must be zero (R58, R62(c)). -/
def formatZ (i : Instr) (a b : Byte) : Decoded :=
  if a ≠ 0 ∨ b ≠ 0 then .illegal .unusedOperand else .legal i

/-- Format A with the operand check `k` on a: b must be zero (R58, R62(d)). -/
def formatA (k : Byte → Decoded) (a b : Byte) : Decoded :=
  if b ≠ 0 then .illegal .unusedOperand else k a

/-- A count operand is at most 64 (R62(f)). -/
def withCount (k : Byte → Instr) (a : Byte) : Decoded :=
  if 64 < a.toNat then .illegal .count else .legal (k a)

/-- A lane index is at most 63 (R62(e)). -/
def withLane (k : Fin 64 → Instr) (a : Byte) : Decoded :=
  if h : a.toNat < 64 then .legal (k ⟨a.toNat, h⟩) else .illegal .laneIndex

/-- A table selector is at most 2 (R62(g)). -/
def withSelector (k : TableArray → Instr) (a : Byte) : Decoded :=
  match tableArrayOf a with
  | some t => .legal (k t)
  | none => .illegal .selector

/-- The operands of each command (R58, R60, R65). -/
def decodeOperands : Opcode → Byte → Byte → Decoded
  | .cfg, a, b => .legal (.cfg a b)
  | .pack, a, b => formatA (withCount .pack) a b
  | .unpack, a, b => formatZ .unpack a b
  | .spack, a, b => formatA (withCount .spack) a b
  | .sunpack, a, b => formatZ .sunpack a b
  | .setv, a, b => formatA (withLane .setv) a b
  | .getv, a, b => formatA (withLane .getv) a b
  | .setc, a, b => formatZ .setc a b
  | .getc, a, b => formatZ .getc a b
  | .rdcfg, a, b => formatZ .rdcfg a b
  | .rdt, a, b => withSelector (fun t => .rdt t b) a

/-- `Decode(CMD)` (R65): it reads nothing but the word. -/
def decode (w : CmdWord) : Decoded :=
  if rsvField w ≠ 0 then .illegal .reservedByte
  else
    match opcodeOf (opField w) with
    | some o => decodeOperands o (aField w) (bField w)
    | none => .illegal .reservedOpcode

/-- A command word from its three fields, the reserved byte zero (R57, R59). -/
def commandWord (op a b : Byte) : CmdWord := 0#8 ++ b ++ a ++ op

/-- A lane index as a byte (R60). -/
def laneByte (i : Fin 64) : Byte := BitVec.ofNat 8 i.val

/-- The command word of an instruction, from the patterns of R59. -/
def encode : Instr → CmdWord
  | .cfg d b => commandWord Opcode.cfg.byte d b
  | .pack n => commandWord Opcode.pack.byte n 0
  | .unpack => commandWord Opcode.unpack.byte 0 0
  | .spack n => commandWord Opcode.spack.byte n 0
  | .sunpack => commandWord Opcode.sunpack.byte 0 0
  | .setv i => commandWord Opcode.setv.byte (laneByte i) 0
  | .getv i => commandWord Opcode.getv.byte (laneByte i) 0
  | .setc => commandWord Opcode.setc.byte 0 0
  | .getc => commandWord Opcode.getc.byte 0 0
  | .rdcfg => commandWord Opcode.rdcfg.byte 0 0
  | .rdt t j => commandWord Opcode.rdt.byte t.selector j

/-- The opcode of an instruction (R58). -/
def Instr.opcode : Instr → Opcode
  | .cfg _ _ => .cfg
  | .pack _ => .pack
  | .unpack => .unpack
  | .spack _ => .spack
  | .sunpack => .sunpack
  | .setv _ => .setv
  | .getv _ => .getv
  | .setc => .setc
  | .getc => .getc
  | .rdcfg => .rdcfg
  | .rdt _ _ => .rdt

/-- The `mask` column of R59: which bits of the word its row fixes. -/
def Opcode.rowMask : Opcode → CmdWord
  | .cfg => 0xFF0000FF
  | .pack => 0xFFFF80FF
  | .unpack => 0xFFFFFFFF
  | .spack => 0xFFFF80FF
  | .sunpack => 0xFFFFFFFF
  | .setv => 0xFFFFC0FF
  | .getv => 0xFFFFC0FF
  | .setc => 0xFFFFFFFF
  | .getc => 0xFFFFFFFF
  | .rdcfg => 0xFFFFFFFF
  | .rdt => 0xFF00FCFF

/-- The `match` column of R59: what those bits are. -/
def Opcode.rowMatch : Opcode → CmdWord
  | .cfg => 0x00000001
  | .pack => 0x00000002
  | .unpack => 0x00000003
  | .spack => 0x00000004
  | .sunpack => 0x00000005
  | .setv => 0x00000008
  | .getv => 0x00000009
  | .setc => 0x0000000A
  | .getc => 0x0000000B
  | .rdcfg => 0x0000000C
  | .rdt => 0x0000000D

/-- The command word of an instruction whose low `nbits` bits are `w` and whose other bits are zero. A command has one
length, 32 bits (R57). -/
def tableWord (nbits w : Nat) : CmdWord := BitVec.ofNat 32 (w % 2 ^ nbits)

/-- What the decoder reads from a word of the opcode table; none where it refuses. -/
def decodeTableWord (nbits w : Nat) : Option Instr :=
  match decode (tableWord nbits w) with
  | .legal i => some i
  | .illegal _ => none

end Sys2Proof
end

