-- ==== Sys2Proof/Config.lean ====
section
/-! DEFINITION. What the spec leaves open and a run fixes: the patterns that the data registers hold after a reset. They
are uninterpreted constants, so no proof can see a value of one of them (log 3). The parameters LATENCY and
PORT_BINDING have no constant here: no rule reads them (R9, R46, R180). -/

namespace Sys2Proof

/-- FREE VALUE (R36, U1; DESIGN CHOICE, log 3): what V[i] holds after reset number `k`. -/
opaque Config.resetLane (k i : Nat) : Data

/-- FREE VALUE (R36, U1; DESIGN CHOICE, log 3): what C holds after reset number `k`. -/
opaque Config.resetCode (k : Nat) : Data

/-- FREE VALUE (R36, U2; DESIGN CHOICE, log 3): what MASK[j] holds after reset number `k`. -/
opaque Config.resetMask (k j : Nat) : Data

/-- FREE VALUE (R36, U2; DESIGN CHOICE, log 3): what LSHIFT[j] holds after reset number `k`. -/
opaque Config.resetLshift (k j : Nat) : Data

/-- FREE VALUE (R36, U2; DESIGN CHOICE, log 3): what RSHIFT[j] holds after reset number `k`. -/
opaque Config.resetRshift (k j : Nat) : Data

end Sys2Proof
end

