-- ==== Sys2Proof/Machine/State.lean ====
section
/-! DEFINITION. The state: `Engine` holds exactly the components of R20; `State` puts beside it what the host exchanges
with the engine (log 1, 2, 3), because the fixed type of `step` has no argument for a request and no result for a
response. -/

namespace Sys2Proof.Machine

/-- STATUS (R145). Values 8 to 15 are never produced: the type has exactly eight constructors (U6). -/
inductive Status where
  | ok
  | invalidConfiguration
  | dimensionMismatch
  | valueOutOfRange
  | signedValueOutOfRange
  | notConfigured
  | illegalCommand
  | tableIndexOutOfRange
deriving DecidableEq, Repr

/-- A response: STATUS and RDATA (R55). -/
structure Response where
  status : Status
  rdata  : Data
deriving DecidableEq, Repr

/-- A request: the command word CMD and the data word WDATA (R55). -/
structure Request where
  cmd   : CmdWord
  wdata : Data
deriving DecidableEq, Repr

/-- What the host does at the port: it presents a request (R55), or `rst` is asserted (R170). `inFlight` is the request
accepted and not yet answered when `rst` came, if there was one. -/
inductive Input where
  | request (r : Request)
  | rst (inFlight : Option Request)
deriving DecidableEq, Repr

/-- The architectural state: exactly the components of R20, and no others. -/
structure Engine where
  valid  : Bool                    -- VALID (R25)
  d      : BitVec 7                -- D (R26)
  b      : BitVec 7                -- B (R26)
  nsteps : BitVec 3                -- NSTEPS (R27)
  mask   : Vector Data 7           -- MASK[0..6] (R28)
  lshift : Vector Data 7           -- LSHIFT[0..6] (R28)
  rshift : Vector Data 7           -- RSHIFT[0..6] (R28)
  v      : Vector Data 64          -- V[0..63] (R21)
  c      : Data                    -- C (R32)
deriving DecidableEq, Repr

/-- The engine and the host's side of its port. Only `engine` is the spec's state; the other four fields are the model's
own. -/
structure State where
  engine    : Engine
  inputs    : List Input       -- what the host will do, oldest first (log 1)
  wdata     : Data             -- WDATA of the request being executed (R15, log 2)
  responses : List Response    -- the responses delivered, oldest first (R45, log 1)
  resets    : Nat              -- how many times `rst` was taken (log 3)
deriving DecidableEq, Repr

/-- A stop of the machine. It has no constructor: an error is a status in a response and the engine goes on, so "a
model's step ... has no separate fault outcome" (R156). -/
inductive Fault where
deriving DecidableEq, Repr

/-- Why the model gives an instruction no meaning. -/
inductive Refusal where
  /-- Raised by an arm of `exec` for an instruction without a meaning yet; safe, since nothing is claimed of it. No arm
  raises it now. -/
  | notModelled (mnemonic : String)
deriving DecidableEq, Repr

/-- What a step answers. -/
abbrev Result := Host.Outcome State Fault Refusal

/-- The engine after reset number `k` (R36): VALID, D, B and NSTEPS are 0; the table, V and C hold the free values of
Config (DESIGN CHOICE, log 3). -/
def Engine.resetAt (k : Nat) : Engine where
  valid  := false
  d      := 0
  b      := 0
  nsteps := 0
  mask   := Vector.ofFn fun j => Config.resetMask k j.val
  lshift := Vector.ofFn fun j => Config.resetLshift k j.val
  rshift := Vector.ofFn fun j => Config.resetRshift k j.val
  v      := Vector.ofFn fun i => Config.resetLane k i.val
  c      := Config.resetCode k

/-- The machine right after reset, no request presented yet (R36, R37, R171). -/
def State.reset : State where
  engine    := Engine.resetAt 0
  inputs    := []
  wdata     := 0
  responses := []
  resets    := 0

end Sys2Proof.Machine
end

