-- ==== Sys2Proof/Machine/Flags.lean ====
section
/-! DEFINITION. The engine has no flags (R24); the outcome of a command is the STATUS and RDATA of its response. Here are
the status numbers and the layouts of the words a response carries (R145, R88). -/

namespace Sys2Proof.Machine

/-- The 4-bit STATUS value on the port (R145). -/
def Status.code : Status → BitVec 4
  | .ok => 0
  | .invalidConfiguration => 1
  | .dimensionMismatch => 2
  | .valueOutOfRange => 3
  | .signedValueOutOfRange => 4
  | .notConfigured => 5
  | .illegalCommand => 6
  | .tableIndexOutOfRange => 7

/-- An information word of two fields: `lo` in bits 15:8, `hi` in bits 23:16, every other bit 0 (R145). -/
def infoWord (lo hi : Data) : Data := (lo <<< 8) ||| (hi <<< 16)

/-- The information word of IllegalCommand: `zext_64(CMD)` (R151). -/
def illegalInfo (w : CmdWord) : Data := w.setWidth 64

/-- The configuration word that RDCFG returns (R88). -/
def Engine.configWord (e : Engine) : Data :=
  (BitVec.ofBool e.valid).setWidth 64 ||| (e.d.setWidth 64 <<< 8) ||| (e.b.setWidth 64 <<< 16) |||
    (e.nsteps.setWidth 64 <<< 24)

end Sys2Proof.Machine
end

