-- ==== Sys2Proof/Machine/Ops.lean ====
section
/-! DEFINITION. The named operations over the state: the register accesses, and the two ways a command ends, `respond`
and `raise` (R15). `raise` is this engine's whole exception entry: it saves nothing and goes nowhere (R155, R156), and
there is no return from it (R158). -/

namespace Sys2Proof.Machine

/-- V[i] (R21). -/
def Engine.lane (e : Engine) (i : Fin 64) : Data := e.v[i]

/-- V[0] .. V[n-1], in order; there are 64 lane registers, so a larger n names no more (R21, log 8). -/
def Engine.lanes (e : Engine) (n : Nat) : List Data := e.v.toList.take n

/-- V[i] <- x (R130). -/
def Engine.setLane (e : Engine) (i : Fin 64) (x : Data) : Engine := { e with v := e.v.set i x }

/-- The registers with the first d of them replaced by f 0 .. f (d-1). -/
def replaceLanes (d : Nat) (f : Nat → Data) (old : Vector Data 64) : Vector Data 64 :=
  old.mapIdx fun i x => if i < d then f i else x

/-- V[i] <- f i for 0 <= i < D; V[D] .. V[63] are unchanged (R22, R105). -/
def Engine.writeLanes (e : Engine) (f : Nat → Data) : Engine := { e with v := replaceLanes e.d.toNat f e.v }

/-- C <- x (R132). -/
def Engine.setCode (e : Engine) (x : Data) : Engine := { e with c := x }

/-- The array that RDT selects (R89). -/
def Engine.array (e : Engine) : TableArray → Vector Data 7
  | .mask => e.mask
  | .lshift => e.lshift
  | .rshift => e.rshift

/-- One response is delivered and the engine's state is `e` (R55). -/
def State.answer (s : State) (e : Engine) (st : Status) (x : Data) : State :=
  { s with engine := e, responses := s.responses ++ [⟨st, x⟩] }

/-- `respond(x)`: the command ends with OK, its writes made (R15). -/
def respond (x : Data) (e : Engine) (s : State) : Result := .next (s.answer e .ok x)

/-- `raise st(info)`: the command ends with a non-zero status and writes nothing (R15, R155). -/
def raise (st : Status) (info : Data) (s : State) : Result := .next (s.answer s.engine st info)

/-- The commands that need a codec raise NotConfigured while VALID = 0 (R25, R150, R154). -/
def whenConfigured (s : State) (k : Result) : Result :=
  if s.engine.valid then k else raise .notConfigured 0 s

/-- A request is accepted: WDATA is sampled with it (R51), and it no longer waits. -/
def State.accept (s : State) (wdata : Data) (rest : List Input) : State := { s with inputs := rest, wdata := wdata }

/-- `rst`: the reset state is taken and no response is delivered; a command in flight is abandoned (R170, R171, U12). -/
def State.takeReset (s : State) (rest : List Input) : State :=
  { s with engine := Engine.resetAt (s.resets + 1), inputs := rest, resets := s.resets + 1 }

/-- An illegal word ends with IllegalCommand and changes nothing (R62, R66, R151). -/
def raiseIllegal (w : CmdWord) (s : State) : Result := raise .illegalCommand (illegalInfo w) s

/-- With no request presented the engine is idle, its state held (R164; DEDUCED, log 4). -/
def idle (s : State) : Result := .next s

/-- A request put first in line (log 6). -/
def State.present (s : State) (r : Request) : State := { s with inputs := .request r :: s.inputs }

end Sys2Proof.Machine
end

