-- ==== Sys2Proof/Machine/Operands.lean ====
section
/-! DEFINITION. How the commands read their operands: the signed reading of a lane (R13), the two range checks with
their scan order (R102, R120), and the validation of CFG's operands (R76). Comparisons are of mathematical integers
(R11). -/

namespace Sys2Proof.Machine

/-- `signed(x)` (R13). -/
def signed (x : Data) : Int := x.toInt

/-- `tc64(n)`: n mod 2^64 (R13). -/
def tc64 (n : Int) : Data := BitVec.ofInt 64 n

/-- PACK's test on one value: x >= 2^B (R101, R148). -/
def unsignedOutOfRange (b : Nat) (x : Data) : Bool := decide (2 ^ b ≤ x.toNat)

/-- SPACK's test on one value: sv >= 2^(B-1) or sv <= -(2^(B-1)), strict at both ends (R117, R119). -/
def signedOutOfRange (b : Nat) (x : Data) : Bool :=
  decide ((2 ^ (b - 1) : Int) ≤ signed x ∨ signed x ≤ -(2 ^ (b - 1) : Int))

/-- The first value out of PACK's range, lowest index first (R102). -/
def firstUnsignedOffender (b : Nat) (xs : List Data) : Option Data := xs.find? (unsignedOutOfRange b)

/-- The first value out of SPACK's range, lowest index first (R120). -/
def firstSignedOffender (b : Nat) (xs : List Data) : Option Data := xs.find? (signedOutOfRange b)

/-- CFG's three tests: d = 0, b = 0 or d*b > 64, the product exact (R76). -/
def invalidPair (d b : Byte) : Bool := d == 0 || b == 0 || decide (64 < d.toNat * b.toNat)

end Sys2Proof.Machine
end

