-- ==== Sys2Proof/Machine/Table.lean ====
section
/-! DEFINITION. The table function `Tables(D, B)` of R77, step by step (R78 to R81), and its installation by CFG (R75).
All variables are 64-bit words, as the rule says; R83 shows that nothing wraps on a legal pair. -/

namespace Sys2Proof.Machine

/-- What `Tables` returns: the arrays of length n (R77). -/
structure Tables where
  mask   : List Data
  lshift : List Data
  rshift : List Data
deriving DecidableEq, Repr

/-- Step 1: 2^B - 1, all ones for B = 64 (R78). -/
def fullMask (b : Nat) : Data := BitVec.ofNat 64 (2 ^ b - 1)

/-- Step 2: OR with right shifts by 1, 2, 4, 8, 16, 32 (R79). -/
def floodFill (s : Data) : Data :=
  let s := s ||| (s >>> 1)
  let s := s ||| (s >>> 2)
  let s := s ||| (s >>> 4)
  let s := s ||| (s >>> 8)
  let s := s ||| (s >>> 16)
  s ||| (s >>> 32)

/-- Step 2: 0, or the highest power of two <= D*(B-1) (R79). -/
def startShift (d b : Nat) : Data :=
  let s := floodFill (BitVec.ofNat 64 (d * (b - 1)))
  s - (s >>> 1)

/-- Step 3a: the gap bits in front of source bit `bit` once fully spread (R80). -/
def distance (d bit : Nat) : Data := BitVec.ofNat 64 (d * bit - bit)

/-- Step 3b: does the pass with shift s move any bit? (R80) -/
def passMoves (d b : Nat) (s : Data) : Bool := (List.range b).any fun bit => s &&& distance d bit != 0

/-- Step 3c: where the B source bits stand after the pass with shift s, this pass included (R80, C4). -/
def passMask (d b : Nat) (s : Data) : Data :=
  (List.range b).foldl (fun m bit => m ||| (1#64 <<< (bit + ((~~~(s - 1)) &&& distance d bit).toNat))) 0

/-- Step 3: the kept passes (mask, shift) from shift s downward (R80). `fuel` bounds the halvings; a 64-bit s is 0 after
64 of them. -/
def passes (d b : Nat) : (fuel : Nat) → (s : Data) → List (Data × Data)
  | 0, _ => []
  | fuel + 1, s =>
    if s = 0 then []
    else if passMoves d b s then (passMask d b s, s) :: passes d b fuel (s >>> 1)
    else passes d b fuel (s >>> 1)

/-- Step 4: the left shifts with the first dropped and a 0 appended (R81). -/
def gatherShifts (lshift : List Data) : List Data := lshift.drop 1 ++ [0]

/-- `Tables(D, B)` (R77). -/
def tables (d b : Nat) : Tables :=
  let steps := (fullMask b, 0) :: passes d b 64 (startShift d b)
  let lshift := steps.map Prod.snd
  { mask := steps.map Prod.fst, lshift := lshift, rshift := gatherShifts lshift }

/-- Entries 0 .. n-1 of an array are replaced, the others stay (R75, U2). -/
def overwrite (xs : List Data) (old : Vector Data 7) : Vector Data 7 :=
  old.mapIdx fun j x => xs.getD j x

/-- The writes of a CFG that succeeds, all together; V and C are not touched (R75). -/
def Engine.configure (e : Engine) (d b : Byte) : Engine :=
  { e with
    valid := true
    d := d.setWidth 7
    b := b.setWidth 7
    nsteps := BitVec.ofNat 3 (tables d.toNat b.toNat).mask.length
    mask := overwrite (tables d.toNat b.toNat).mask e.mask
    lshift := overwrite (tables d.toNat b.toNat).lshift e.lshift
    rshift := overwrite (tables d.toNat b.toNat).rshift e.rshift }

end Sys2Proof.Machine
end

