-- ==== Sys2Proof/Machine/Configure.lean ====
section
/-! DEFINITION. The system commands CFG, RDCFG and RDT (R91). -/

namespace Sys2Proof.Machine

/-- `CFG d, b` (R75): a codec for d dimensions of b bits replaces the current one; an invalid pair writes nothing
(R82). -/
def execCfg (d b : Byte) (s : State) : Result :=
  if invalidPair d b then raise .invalidConfiguration (infoWord (d.setWidth 64) (b.setWidth 64)) s
  else respond 0 (s.engine.configure d b) s

/-- `RDCFG` (R88): the configuration word, in every state. -/
def execRdcfg (s : State) : Result := respond s.engine.configWord s.engine s

/-- `RDT sel, j` (R89): one word of the table; its checks in the order of R90. -/
def execRdt (sel : TableArray) (j : Byte) (s : State) : Result :=
  whenConfigured s <|
    if h : s.engine.nsteps.toNat ≤ j.toNat then
      raise .tableIndexOutOfRange (infoWord (s.engine.nsteps.setWidth 64) (j.setWidth 64)) s
    else
      respond ((s.engine.array sel)[j.toNat]'(by have := s.engine.nsteps.isLt; omega)) s.engine s

end Sys2Proof.Machine
end

