-- ==== Sys2Proof/Machine/Transform.lean ====
section
/-! DEFINITION. Spread (R95), gather (R98), and the interleaving of spread lanes (R101), over the engine's table. -/

namespace Sys2Proof.Machine

/-- The pairs (MASK[j], LSHIFT[j]) for 0 <= j < NSTEPS (R28). -/
def Engine.spreadSteps (e : Engine) : List (Data × Data) := (e.mask.toList.zip e.lshift.toList).take e.nsteps.toNat

/-- The pairs (MASK[j], RSHIFT[j]) for 0 <= j < NSTEPS (R28). -/
def Engine.gatherSteps (e : Engine) : List (Data × Data) := (e.mask.toList.zip e.rshift.toList).take e.nsteps.toNat

/-- One spread pass: `(v | (v << shift)) & mask` (R95). -/
def spreadPass (x : Data) (p : Data × Data) : Data := (x ||| (x <<< p.2)) &&& p.1

/-- One gather pass: `(x | (x >> shift)) & mask` (R98). -/
def gatherPass (p : Data × Data) (x : Data) : Data := (x ||| (x >>> p.2)) &&& p.1

/-- `Spread(x)`: the passes front to back (R95). -/
def Engine.spread (e : Engine) (x : Data) : Data := e.spreadSteps.foldl spreadPass x

/-- `Gather(x)`: the passes back to front (R98). -/
def Engine.gather (e : Engine) (x : Data) : Data := e.gatherSteps.foldr gatherPass x

/-- The OR over i of `Spread(xs[i]) << i` (R101). -/
def Engine.interleave (e : Engine) (xs : List Data) : Data :=
  xs.zipIdx.foldl (fun code p => code ||| (e.spread p.1 <<< p.2)) 0

/-- Lane i of the code in C: `Gather(C >> i)` (R105). -/
def Engine.codeLane (e : Engine) (i : Nat) : Data := e.gather (e.c >>> i)

end Sys2Proof.Machine
end

