-- ==== Sys2Proof/Machine/Pack.lean ====
section
/-! DEFINITION. The unsigned pack and unpack (R101, R105). -/

namespace Sys2Proof.Machine

/-- `PACK n` (R101): the count, then the values, then the code into C; its checks in the order of R102. -/
def execPack (n : Byte) (s : State) : Result :=
  whenConfigured s <|
    if n.toNat ≠ s.engine.d.toNat then
      raise .dimensionMismatch (infoWord (s.engine.d.setWidth 64) (n.setWidth 64)) s
    else
      match firstUnsignedOffender s.engine.b.toNat (s.engine.lanes s.engine.d.toNat) with
      | some x => raise .valueOutOfRange x s
      | none =>
        let code := s.engine.interleave (s.engine.lanes s.engine.d.toNat)
        respond code (s.engine.setCode code) s

/-- `UNPACK` (R105): V[i] <- Gather(C >> i) for 0 <= i < D. -/
def execUnpack (s : State) : Result :=
  whenConfigured s (respond 0 (s.engine.writeLanes s.engine.codeLane) s)

end Sys2Proof.Machine
end

