-- ==== Sys2Proof/Machine/SignMagnitude.lean ====
section
/-! DEFINITION. The sign-magnitude mapping of a B-bit lane (R116, R118). -/

namespace Sys2Proof.Machine

/-- `SignEnc(sv)`: magnitude in the low B-1 bits, bit B-1 set for a negative sv (R116). -/
def signEnc (b : Nat) (sv : Int) : Data :=
  if sv < 0 then tc64 (-sv) ||| (1#64 <<< (b - 1)) else tc64 sv

/-- `SignDec(u)`: the magnitude u mod 2^(B-1), negated if bit B-1 is set (R118). -/
def signDec (b : Nat) (u : Data) : Data :=
  let mag : Nat := u.toNat % 2 ^ (b - 1)
  if u.getLsbD (b - 1) then tc64 (-(mag : Int)) else BitVec.ofNat 64 mag

/-- The encoding of a lane register read as signed (R115, R119). -/
def signEncLane (b : Nat) (x : Data) : Data := signEnc b (signed x)

end Sys2Proof.Machine
end

