-- ==== Sys2Proof/Machine/Signed.lean ====
section
/-! DEFINITION. The signed pack and unpack (R119, R121). -/

namespace Sys2Proof.Machine

/-- `SPACK n` (R119): the values V[0] .. V[n-1], then the count, then the code into C; its checks in the order of
R120. -/
def execSpack (n : Byte) (s : State) : Result :=
  whenConfigured s <|
    match firstSignedOffender s.engine.b.toNat (s.engine.lanes n.toNat) with
    | some x => raise .signedValueOutOfRange x s
    | none =>
      if n.toNat ≠ s.engine.d.toNat then
        raise .dimensionMismatch (infoWord (s.engine.d.setWidth 64) (n.setWidth 64)) s
      else
        let code := s.engine.interleave ((s.engine.lanes n.toNat).map (signEncLane s.engine.b.toNat))
        respond code (s.engine.setCode code) s

/-- `SUNPACK` (R121): V[i] <- SignDec(Gather(C >> i)) for 0 <= i < D. -/
def execSunpack (s : State) : Result :=
  whenConfigured s
    (respond 0 (s.engine.writeLanes fun i => signDec s.engine.b.toNat (s.engine.codeLane i)) s)

end Sys2Proof.Machine
end

