-- ==== Sys2Proof/Machine/Transfer.lean ====
section
/-! DEFINITION. The operand transfers (R130 to R133). They read neither VALID nor D nor B. -/

namespace Sys2Proof.Machine

/-- `SETV i` (R130): V[i] <- WDATA. -/
def execSetv (i : Fin 64) (s : State) : Result := respond 0 (s.engine.setLane i s.wdata) s

/-- `GETV i` (R131): the response carries V[i]. -/
def execGetv (i : Fin 64) (s : State) : Result := respond (s.engine.lane i) s.engine s

/-- `SETC` (R132): C <- WDATA. -/
def execSetc (s : State) : Result := respond 0 (s.engine.setCode s.wdata) s

/-- `GETC` (R133): the response carries C. -/
def execGetc (s : State) : Result := respond s.engine.c s.engine s

end Sys2Proof.Machine
end

