-- ==== Sys2Proof/Machine/Dispatch.lean ====
section
/-! DEFINITION. One arm per command (R66). -/

namespace Sys2Proof.Machine

def exec (i : Instr) (s : State) : Host.Outcome State Fault Refusal :=
  match i with
  | .cfg d b => Sys2Proof.Machine.execCfg d b s
  | .pack n => Sys2Proof.Machine.execPack n s
  | .unpack => Sys2Proof.Machine.execUnpack s
  | .spack n => Sys2Proof.Machine.execSpack n s
  | .sunpack => Sys2Proof.Machine.execSunpack s
  | .setv k => Sys2Proof.Machine.execSetv k s
  | .getv k => Sys2Proof.Machine.execGetv k s
  | .setc => Sys2Proof.Machine.execSetc s
  | .getc => Sys2Proof.Machine.execGetc s
  | .rdcfg => Sys2Proof.Machine.execRdcfg s
  | .rdt sel j => Sys2Proof.Machine.execRdt sel j s

end Sys2Proof.Machine
end

