-- ==== Sys2Proof/Machine/Execute.lean ====
section
/-! DEFINITION. The execution of one request: decode, then run the command or answer IllegalCommand (R66). -/

namespace Sys2Proof.Machine

/-- The command word `w` is executed (R66). -/
def execWord (w : CmdWord) (s : State) : Result :=
  match Sys2Proof.decode w with
  | .legal i => exec i s
  | .illegal _ => raiseIllegal w s

end Sys2Proof.Machine
end

