-- ==== Sys2Proof/Machine/Step.lean ====
section
/-! DEFINITION. One step of the machine: the oldest host input is taken. A request is executed whole (R45, R66, R178). -/

namespace Sys2Proof.Machine

/-- The step: a request (R66), a reset (R170), or nothing to do (R164). -/
def step (s : State) : Host.Outcome State Fault Refusal :=
  match s.inputs with
  | [] => idle s
  | .request r :: rest => execWord r.cmd (s.accept r.wdata rest)
  | .rst _ :: rest => .next (s.takeReset rest)

/-- The state with one command put first in line, its WDATA 0, so that the next step runs it (log 6). -/
def State.withFetchWord (s : State) (nbits w : Nat) : State := s.present ⟨Sys2Proof.tableWord nbits w, 0⟩

end Sys2Proof.Machine
end

