-- ==== Sys2Proof/Machine/Assembler.lean ====
section
/-! DEFINITION. The host's side of the port: assembler lines and their requests (R68), the pseudo-instructions (R69,
R136), the text form of a line (R68, log 10), and the host sequences of the five entry points (R137). -/

namespace Sys2Proof.Machine

/-- One assembler line (R68, R69). Operands are numbers as written; a data operand may be negative. -/
inductive AsmLine where
  | cfg (d b : Nat)
  | pack (n : Nat)
  | unpack
  | spack (n : Nat)
  | sunpack
  | setv (i : Nat) (data : Int)
  | getv (i : Nat)
  | setc (data : Int)
  | getc
  | rdcfg
  | rdt (sel j : Nat)
  | packv (xs : List Int)
  | spackv (xs : List Int)
deriving DecidableEq, Repr

/-- The request with CMD = op + a*2^8 + b*2^16; none when an operand does not fit its byte (R57, R68). -/
def asmRequest (op a b : Nat) (data : Data) : Option Request :=
  if a < 256 ∧ b < 256 then some ⟨BitVec.ofNat 32 (op + a * 2 ^ 8 + b * 2 ^ 16), data⟩ else none

/-- A 64-bit data operand: 0 .. 2^64-1, or a negative number meaning its `tc64` (R68). -/
def asmData (x : Int) : Option Data := if -(2 ^ 63) ≤ x ∧ x < 2 ^ 64 then some (tc64 x) else none

/-- `setv i, x` (R68). -/
def asmSetv (i : Nat) (x : Int) : Option Request := (asmData x).bind (asmRequest 0x08 i 0)

/-- The expansion of `packv` and `spackv`: `setv j, xj` for every j, then the command with op and count k <= 64 (R69). -/
def asmStaged (op : Nat) (xs : List Int) : Option (List Request) :=
  if xs.length ≤ 64 then
    (xs.zipIdx.mapM fun p => asmSetv p.2 p.1).bind fun rs =>
      (asmRequest op xs.length 0 0).map fun r => rs ++ [r]
  else none

/-- The requests a line stands for (R68, R69); none when it cannot be written as requests. -/
def AsmLine.requests : AsmLine → Option (List Request)
  | .cfg d b => (asmRequest 0x01 d b 0).map ([·])
  | .pack n => (asmRequest 0x02 n 0 0).map ([·])
  | .unpack => (asmRequest 0x03 0 0 0).map ([·])
  | .spack n => (asmRequest 0x04 n 0 0).map ([·])
  | .sunpack => (asmRequest 0x05 0 0 0).map ([·])
  | .setv i x => (asmSetv i x).map ([·])
  | .getv i => (asmRequest 0x09 i 0 0).map ([·])
  | .setc x => ((asmData x).bind (asmRequest 0x0A 0 0)).map ([·])
  | .getc => (asmRequest 0x0B 0 0 0).map ([·])
  | .rdcfg => (asmRequest 0x0C 0 0 0).map ([·])
  | .rdt sel j => (asmRequest 0x0D sel j 0).map ([·])
  | .packv xs => asmStaged 0x02 xs
  | .spackv xs => asmStaged 0x04 xs

/-- The line that writes one legal command with the data operand `w` (R68). -/
def asmLineOf (i : Instr) (w : Data) : AsmLine :=
  match i with
  | .cfg d b => .cfg d.toNat b.toNat
  | .pack n => .pack n.toNat
  | .unpack => .unpack
  | .spack n => .spack n.toNat
  | .sunpack => .sunpack
  | .setv k => .setv k.val w.toNat
  | .getv k => .getv k.val
  | .setc => .setc w.toNat
  | .getc => .getc
  | .rdcfg => .rdcfg
  | .rdt t j => .rdt t.selector.toNat j.toNat

/-! ### The text of a line (R68, log 10) -/

/-- A blank: a space or a tab (log 10). -/
def isBlank (c : Char) : Bool := c == ' ' || c == '\t'

/-- Blanks at both ends are dropped (log 10). -/
def trimBlanks (cs : List Char) : List Char := ((cs.dropWhile isBlank).reverse.dropWhile isBlank).reverse

/-- The pieces between commas (R68). -/
def splitCommas : List Char → List (List Char)
  | [] => [[]]
  | c :: cs =>
    if c == ',' then [] :: splitCommas cs
    else
      match splitCommas cs with
      | [] => [[c]]
      | x :: xs => (c :: x) :: xs

/-- One hexadecimal digit, of either case; a decimal digit is one below 10. -/
def digitOf (c : Char) : Option Nat :=
  if '0' ≤ c ∧ c ≤ '9' then some (c.toNat - '0'.toNat)
  else if 'a' ≤ c ∧ c ≤ 'f' then some (c.toNat - 'a'.toNat + 10)
  else if 'A' ≤ c ∧ c ≤ 'F' then some (c.toNat - 'A'.toNat + 10)
  else none

/-- Digits in a base, most significant first, added to what was read before. -/
def digitsFrom (base : Nat) : (acc : Nat) → List Char → Option Nat
  | acc, [] => some acc
  | acc, c :: cs =>
    match digitOf c with
    | some k => if k < base then digitsFrom base (acc * base + k) cs else none
    | none => none

/-- A number: decimal, or hexadecimal with `0x` (R68). -/
def numberOf : List Char → Option Nat
  | [] => none
  | ['0', 'x'] => none
  | '0' :: 'x' :: cs => digitsFrom 16 0 cs
  | cs => digitsFrom 10 0 cs

/-- A data operand: a number, or a negative decimal (R68). -/
def dataNumberOf : List Char → Option Int
  | [] => none
  | ['-'] => none
  | '-' :: cs => (digitsFrom 10 0 cs).map fun n => -(n : Int)
  | cs => (numberOf cs).map fun n => (n : Int)

/-- A selector: `mask`, `lshift`, `rshift`, or a number (R68). -/
def selectorOf (cs : List Char) : Option Nat :=
  if cs = ['m', 'a', 's', 'k'] then some 0
  else if cs = ['l', 's', 'h', 'i', 'f', 't'] then some 1
  else if cs = ['r', 's', 'h', 'i', 'f', 't'] then some 2
  else numberOf cs

/-- A mnemonic and its operands as a line (R68, R69). -/
def lineOf (mnemonic : List Char) (ops : List (List Char)) : Option AsmLine :=
  match mnemonic, ops with
  | ['c', 'f', 'g'], [d, b] => do return .cfg (← numberOf d) (← numberOf b)
  | ['p', 'a', 'c', 'k'], [n] => do return .pack (← numberOf n)
  | ['u', 'n', 'p', 'a', 'c', 'k'], [] => some .unpack
  | ['s', 'p', 'a', 'c', 'k'], [n] => do return .spack (← numberOf n)
  | ['s', 'u', 'n', 'p', 'a', 'c', 'k'], [] => some .sunpack
  | ['s', 'e', 't', 'v'], [i, x] => do return .setv (← numberOf i) (← dataNumberOf x)
  | ['g', 'e', 't', 'v'], [i] => do return .getv (← numberOf i)
  | ['s', 'e', 't', 'c'], [x] => do return .setc (← dataNumberOf x)
  | ['g', 'e', 't', 'c'], [] => some .getc
  | ['r', 'd', 'c', 'f', 'g'], [] => some .rdcfg
  | ['r', 'd', 't'], [t, j] => do return .rdt (← selectorOf t) (← numberOf j)
  | ['p', 'a', 'c', 'k', 'v'], xs => do return .packv (← xs.mapM dataNumberOf)
  | ['s', 'p', 'a', 'c', 'k', 'v'], xs => do return .spackv (← xs.mapM dataNumberOf)
  | _, _ => none

/-- The requests of one line of text: the comment from `#` is dropped, and a line with nothing else has none (R68). -/
def assembleLine (text : List Char) : Option (List Request) :=
  let cs := trimBlanks (text.takeWhile (· != '#'))
  if cs = [] then some []
  else
    let operands := trimBlanks (cs.dropWhile fun c => !isBlank c)
    let ops := if operands = [] then [] else (splitCommas operands).map trimBlanks
    (lineOf (cs.takeWhile fun c => !isBlank c) ops).bind AsmLine.requests

/-! ### Host sequences (R137) -/

/-- The request for an instruction. -/
def requestOf (i : Instr) (w : Data) : Request := ⟨Sys2Proof.encode i, w⟩

/-- The count operand for k staged values (R136). -/
def countByte (k : Nat) : Byte := BitVec.ofNat 8 k

/-- `setv j, xs[j]` for j = 0 .. k-1 (R137). -/
def stage (xs : List Data) : List Request :=
  xs.zipIdx.map fun p => ⟨commandWord Opcode.setv.byte (BitVec.ofNat 8 p.2) 0, p.1⟩

/-- `getv j` for j = 0 .. d-1 (R137). -/
def readOut (d : Nat) : List Request :=
  (List.range d).map fun j => ⟨commandWord Opcode.getv.byte (BitVec.ofNat 8 j) 0, 0⟩

/-- Construct(d, b); none when the host answers InvalidConfiguration itself (R61, R137). -/
def constructSequence (d b : Nat) : Option (List Request) :=
  if d ≤ 255 ∧ b ≤ 255 then some [requestOf (.cfg (BitVec.ofNat 8 d) (BitVec.ofNat 8 b)) 0] else none

/-- pack(values); none when the host answers DimensionMismatch itself (R136, R137). -/
def packSequence (xs : List Data) : Option (List Request) :=
  if xs.length ≤ 64 then some (stage xs ++ [requestOf (.pack (countByte xs.length)) 0]) else none

/-- sPack(values), each value already its `tc64`; none when the host answers DimensionMismatch itself (R136, R137). -/
def spackSequence (xs : List Data) : Option (List Request) :=
  if xs.length ≤ 64 then some (stage xs ++ [requestOf (.spack (countByte xs.length)) 0]) else none

/-- unpack(code) for a codec of d dimensions (R137). -/
def unpackSequence (code : Data) (d : Nat) : List Request :=
  requestOf .setc code :: requestOf .unpack 0 :: readOut d

/-- sUnpack(code) for a codec of d dimensions (R137). -/
def sunpackSequence (code : Data) (d : Nat) : List Request :=
  requestOf .setc code :: requestOf .sunpack 0 :: readOut d

end Sys2Proof.Machine
end

