-- ==== Sys2Proof/Safety.lean ====
section
/-! DEFINITION. The terms that claims use: a legal configuration, the invariant of a run, how a command ends, and runs
of the host's inputs. -/

namespace Sys2Proof.Machine

/-- A legal (D, B): 1 <= D, 1 <= B, D*B <= 64 (R7, R76). -/
abbrev LegalPair (d b : Nat) : Prop := 1 ≤ d ∧ 1 ≤ b ∧ d * b ≤ 64

/-- The engine holds the codec of (d, b): the pair is legal and the table is `Tables(d, b)` (R29(a), (e)). -/
abbrev Engine.Configured (e : Engine) (d b : Nat) : Prop :=
  LegalPair d b ∧ e.valid = true ∧ e.d.toNat = d ∧ e.b.toNat = b ∧
    e.nsteps.toNat = (tables d b).mask.length ∧
    e.mask.toList.take e.nsteps.toNat = (tables d b).mask ∧
    e.lshift.toList.take e.nsteps.toNat = (tables d b).lshift ∧
    e.rshift.toList.take e.nsteps.toNat = (tables d b).rshift

/-- The engine holds no codec: VALID, D, B and NSTEPS are as reset leaves them (R36, U3). -/
abbrev Engine.Unconfigured (e : Engine) : Prop := e.valid = false ∧ e.d = 0 ∧ e.b = 0 ∧ e.nsteps = 0

/-- The invariant of every run: no codec yet, or the codec of the D and B it holds (R29, R36). -/
abbrev Engine.Inv (e : Engine) : Prop := e.Unconfigured ∨ e.Configured e.d.toNat e.b.toNat

/-- R29 (a) to (e), read off the registers: the pair is legal; entry 0 is (2^B - 1, 0); 1 <= NSTEPS <= 7; RSHIFT is LSHIFT
moved down by one with a 0 at the end; every entry below NSTEPS is that of `Tables(D, B)`. -/
abbrev Engine.TableInvariants (e : Engine) : Prop :=
  LegalPair e.d.toNat e.b.toNat ∧
    (e.mask[0].toNat = 2 ^ e.b.toNat - 1 ∧ e.lshift[0] = 0) ∧
    (1 ≤ e.nsteps.toNat ∧ e.nsteps.toNat ≤ 7) ∧
    ((∀ (j : Nat) (h : j < 6), j + 1 < e.nsteps.toNat → e.rshift[j] = e.lshift[j + 1]) ∧
      ∀ (j : Nat) (h : j < 7), j + 1 = e.nsteps.toNat → e.rshift[j] = 0) ∧
    ∀ (j : Nat) (h : j < 7), j < e.nsteps.toNat →
      (tables e.d.toNat e.b.toNat).mask[j]? = some e.mask[j] ∧
        (tables e.d.toNat e.b.toNat).lshift[j]? = some e.lshift[j] ∧
        (tables e.d.toNat e.b.toNat).rshift[j]? = some e.rshift[j]

/-- The two engines hold the same configuration: VALID, D, B, NSTEPS and the whole table (R30). -/
abbrev SameConfig (e f : Engine) : Prop :=
  f.valid = e.valid ∧ f.d = e.d ∧ f.b = e.b ∧ f.nsteps = e.nsteps ∧
    f.mask = e.mask ∧ f.lshift = e.lshift ∧ f.rshift = e.rshift

/-- Every value among V[0] .. V[n-1] is below 2^B (R101). -/
abbrev Engine.LanesInRange (e : Engine) (n : Nat) : Prop :=
  ∀ k : Fin 64, k.val < n → (e.lane k).toNat < 2 ^ e.b.toNat

/-- Every value among V[0] .. V[n-1], read as signed, is strictly between -(2^(B-1)) and 2^(B-1) (R117). -/
abbrev Engine.LanesInSignedRange (e : Engine) (n : Nat) : Prop :=
  ∀ k : Fin 64, k.val < n → -(2 ^ (e.b.toNat - 1) : Int) < (e.lane k).toInt ∧ (e.lane k).toInt < (2 ^ (e.b.toNat - 1) : Int)

/-- Command i ends with status `st`, whatever it reports and writes. -/
abbrev EndsIn (i : Instr) (s : State) (st : Status) : Prop := ∃ e x, exec i s = .next (s.answer e st x)

/-- Command i ends with status `st` and RDATA `x`, and the engine's state is as before (R155). -/
abbrev FailsWith (i : Instr) (s : State) (st : Status) (x : Data) : Prop :=
  exec i s = .next (s.answer s.engine st x)

/-- Command i succeeds with RDATA `x` and leaves the engine in state `e`. -/
abbrev Succeeds (i : Instr) (s : State) (e : Engine) (x : Data) : Prop := exec i s = .next (s.answer e .ok x)

/-- The statuses a command may end with (the table of R153, the column of IllegalCommand apart: that one is decided
from the word, before there is a command). -/
def mayEnd : Instr → Status → Bool
  | _, .ok => true
  | .cfg _ _, .invalidConfiguration => true
  | .pack _, .dimensionMismatch => true
  | .pack _, .valueOutOfRange => true
  | .pack _, .notConfigured => true
  | .unpack, .notConfigured => true
  | .spack _, .dimensionMismatch => true
  | .spack _, .signedValueOutOfRange => true
  | .spack _, .notConfigured => true
  | .sunpack, .notConfigured => true
  | .rdt _ _, .notConfigured => true
  | .rdt _ _, .tableIndexOutOfRange => true
  | _, _ => false

/-- The input is a request, and the command it carries, if its word is legal, satisfies `p`; no `rst`. -/
def Input.commandIs (p : Instr → Bool) : Input → Bool
  | .rst _ => false
  | .request r =>
    match Sys2Proof.decode r.cmd with
    | .legal i => p i
    | .illegal _ => true

/-- Neither CFG nor a command that writes C (R107, R123). -/
def keepsCode : Instr → Bool
  | .cfg _ _ | .setc | .pack _ | .spack _ => false
  | _ => true

/-- No command that writes V[k] whatever D is (R134(a)). -/
def keepsLane (k : Fin 64) : Instr → Bool
  | .setv i => decide (i ≠ k)
  | .unpack | .sunpack => false
  | _ => true

/-- No command that writes C (R134(b)). -/
def writesNoCode : Instr → Bool
  | .setc | .pack _ | .spack _ => false
  | _ => true

/-- A run of `k` steps from s ends in t. -/
abbrev Runs (k : Nat) (s t : State) : Prop := Host.Core.run Sys2Proof.core k s = .next t

/-- Requests as host inputs. -/
abbrev asInputs (rs : List Request) : List Input := rs.map .request

/-- The lane registers with V[0] .. V[k-1] set to the k values of a list (at most 64). -/
def stagedLanes (xs : List Data) (old : Vector Data 64) : Vector Data 64 :=
  old.mapIdx fun i x => xs.getD i x

/-- The engine with V[0] .. V[k-1] set to the k values of a list (at most 64). -/
def Engine.staged (e : Engine) (xs : List Data) : Engine := { e with v := stagedLanes xs e.v }

end Sys2Proof.Machine
end

