-- ==== Sys2Proof/Certificates/Slice0/Obligations.lean ====
section
/-! DEFINITION. The statements for the provers, one definition each; OBLIGATIONS.json says what each one is. -/

open Sys2Proof Sys2Proof.Machine

/-! ### Encoding -/

/-- Words written out from the patterns of R59 decode to the command they stand for. -/
def Obligations.WrittenWordsDecode : Prop :=
  decode 0b00000000_00000100_00000010_00000001#32 = .legal (.cfg 2 4) ∧
  decode 0b00000000_00000000_01000000_00000010#32 = .legal (.pack 64) ∧
  decode 0b00000000_00000000_00000000_00000011#32 = .legal .unpack ∧
  decode 0b00000000_00000000_00000011_00000100#32 = .legal (.spack 3) ∧
  decode 0b00000000_00000000_00111111_00001000#32 = .legal (.setv 63) ∧
  decode 0b00000000_00000000_00000000_00001010#32 = .legal .setc ∧
  decode 0b00000000_00000110_00000010_00001101#32 = .legal (.rdt .rshift 6)

/-- The worked encodings of R70. -/
def Obligations.WorkedEncodings : Prop :=
  (AsmLine.cfg 2 32).requests = some [⟨0x00200201, 0⟩] ∧ encode (.cfg 2 32) = 0x00200201 ∧
  (AsmLine.pack 2).requests = some [⟨0x00000202, 0⟩] ∧ encode (.pack 2) = 0x00000202 ∧
  (AsmLine.setv 63 1).requests = some [⟨0x00003F08, 0x0000000000000001⟩] ∧ encode (.setv 63) = 0x00003F08 ∧
  (AsmLine.rdt 2 1).requests = some [⟨0x0001020D, 0⟩] ∧ encode (.rdt .rshift 1) = 0x0001020D ∧
  (AsmLine.cfg 64 1).requests = some [⟨0x00014001, 0⟩] ∧ encode (.cfg 64 1) = 0x00014001 ∧
  (AsmLine.spack 64).requests = some [⟨0x00004004, 0⟩] ∧ encode (.spack 64) = 0x00004004 ∧
  (AsmLine.spack 65).requests = some [⟨0x00004104, 0⟩] ∧ decode 0x00004104 = .illegal .count

/-- R62: a word is illegal exactly by one of the seven clauses; it ends with IllegalCommand and RDATA = zext_64(CMD),
and changes no state. -/
def Obligations.IllegalWordsExactly : Prop :=
  ∀ w : CmdWord,
    ((∃ why, decode w = .illegal why) ↔
      (w.extractLsb' 24 8 ≠ 0 ∨
       w.extractLsb' 0 8 ∉ [0x01#8, 0x02, 0x03, 0x04, 0x05, 0x08, 0x09, 0x0A, 0x0B, 0x0C, 0x0D] ∨
       (w.extractLsb' 0 8 ∈ [0x03#8, 0x05, 0x0A, 0x0B, 0x0C] ∧ (w.extractLsb' 8 8 ≠ 0 ∨ w.extractLsb' 16 8 ≠ 0)) ∨
       (w.extractLsb' 0 8 ∈ [0x02#8, 0x04, 0x08, 0x09] ∧ w.extractLsb' 16 8 ≠ 0) ∨
       (w.extractLsb' 0 8 ∈ [0x08#8, 0x09] ∧ 63 < (w.extractLsb' 8 8).toNat) ∨
       (w.extractLsb' 0 8 ∈ [0x02#8, 0x04] ∧ 64 < (w.extractLsb' 8 8).toNat) ∨
       (w.extractLsb' 0 8 = 0x0D ∧ 2 < (w.extractLsb' 8 8).toNat))) ∧
    ∀ s : State, (∃ why, decode w = .illegal why) →
      execWord w s = .next (s.answer s.engine .illegalCommand (w.setWidth 64))

/-- Decoding the word of a well-formed instruction gives the instruction back, every operand included. -/
def Obligations.DecodeEncode : Prop := ∀ i : Instr, i.wellFormed = true → decode (encode i) = .legal i

/-- A word that decodes is the word of the instruction it decodes to, and that instruction is well formed. -/
def Obligations.EncodeDecode : Prop := ∀ (w : CmdWord) (i : Instr), decode w = .legal i → i.wellFormed = true ∧ encode i = w

/-- R59: a legal word matches the row of its command and no other row; a word that matches a row and is illegal is PACK or
SPACK with n = 65 .. 127 or RDT with sel = 3. -/
def Obligations.WordsMatchOneRow : Prop :=
  (∀ w i, decode w = .legal i → w &&& i.opcode.rowMask = i.opcode.rowMatch) ∧
  (∀ (w : CmdWord) (o p : Opcode), w &&& o.rowMask = o.rowMatch → w &&& p.rowMask = p.rowMatch → o = p) ∧
  (∀ (w : CmdWord) (o : Opcode), w &&& o.rowMask = o.rowMatch →
    ((∃ why, decode w = .illegal why) ↔
      ((o = .pack ∨ o = .spack) ∧ 65 ≤ (w.extractLsb' 8 8).toNat ∧ (w.extractLsb' 8 8).toNat ≤ 127) ∨
      (o = .rdt ∧ w.extractLsb' 8 8 = 3)))

/-- The line of the syntax table of R68 for a command gives the command's word, with the data operand as WDATA. -/
def Obligations.AssemblerAgreesWithEncoder : Prop :=
  ∀ (i : Instr) (w : Data),
    (asmLineOf i w).requests =
      some [⟨encode i, match i with
        | .setv _ | .setc => w
        | _ => 0⟩]

/-! ### The step -/

/-- R66: a step with a request first in line decodes it; a legal word is run by its command's meaning at the state in
which the request was accepted, an illegal one is answered IllegalCommand(zext_64(CMD)). -/
def Obligations.StepRunsDecodedCommand : Prop :=
  ∀ (s : State) (r : Request) (rest : List Input), s.inputs = .request r :: rest →
    (∀ i, decode r.cmd = .legal i → step s = exec i { s with inputs := rest, wdata := r.wdata }) ∧
    (∀ why, decode r.cmd = .illegal why →
      step s = .next { s with inputs := rest, wdata := r.wdata,
                              responses := s.responses ++ [⟨.illegalCommand, r.cmd.setWidth 64⟩] })

/-- `rst`, a command in flight or not, gives an engine with VALID = D = B = NSTEPS = 0 and no response; the inputs behind
it still wait. The table, V and C are the model's free values (log 3): nothing is said of them. -/
def Obligations.ResetInputUnconfigures : Prop :=
  ∀ (s : State) (f : Option Request) (rest : List Input), s.inputs = .rst f :: rest →
    ∃ t, step s = .next t ∧ t.engine.valid = false ∧ t.engine.d = 0 ∧ t.engine.b = 0 ∧ t.engine.nsteps = 0 ∧
      t.inputs = rest ∧ t.responses = s.responses

/-- With no input waiting a step changes nothing (the model's reading of "idle with its state held", log 4). -/
def Obligations.IdleKeepsState : Prop := ∀ s : State, s.inputs = [] → step s = .next s

/-- Requests are answered one response each, in order, by the commands executed one after another: a run over m + n
requests is the run over the first m followed by the run over the other n. -/
def Obligations.RequestsAnsweredInOrder : Prop :=
  ∀ (rs qs : List Request) (rest : List Input) (s : State),
    s.inputs = asInputs (rs ++ qs) ++ rest →
    ∃ t u, Runs rs.length s t ∧ Runs qs.length t u ∧ Runs (rs.length + qs.length) s u ∧
      t.inputs = asInputs qs ++ rest ∧ u.inputs = rest ∧ u.resets = s.resets ∧
      ∃ a b, t.responses = s.responses ++ a ∧ u.responses = s.responses ++ (a ++ b) ∧
        a.length = rs.length ∧ b.length = qs.length

/-- R155: a command that ends with a non-zero status leaves the engine's state as it was, bit for bit. -/
def Obligations.FailedCommandWritesNothing : Prop :=
  ∀ (w : CmdWord) (s : State),
    ∃ e st x, execWord w s = .next (s.answer e st x) ∧ (st ≠ .ok → e = s.engine)

/-- R64: WDATA changes neither the response nor the engine's state, except by SETV and SETC. -/
def Obligations.OnlySetvSetcReadWdata : Prop :=
  ∀ (i : Instr), (∀ k, i ≠ .setv k) → i ≠ .setc → ∀ (s : State) (x : Data),
    ∃ e st y, exec i s = .next (s.answer e st y) ∧
      exec i { s with wdata := x } = .next ({ s with wdata := x }.answer e st y)

/-- The response and the engine's new state depend on the command word, WDATA and the engine's state alone, never on what
was answered before or on what the host does next. -/
def Obligations.ResponseDependsOnEngineOnly : Prop :=
  ∀ (w : CmdWord) (s s' : State), s'.engine = s.engine → s'.wdata = s.wdata →
    ∃ e st x, execWord w s = .next (s.answer e st x) ∧ execWord w s' = .next (s'.answer e st x)

/-- Which command can end with which status (the blanks of R153's table). -/
def Obligations.StatusesOfEachCommand : Prop :=
  ∀ (i : Instr) (s : State), ∃ e st x, exec i s = .next (s.answer e st x) ∧ mayEnd i st = true

/-- The eight STATUS numbers are 0 to 7, each its own. -/
def Obligations.StatusNumbersAreZeroToSeven : Prop :=
  (∀ st : Status, st.code.toNat < 8) ∧ (∀ st su : Status, st.code = su.code → st = su) ∧
  Status.ok.code = 0 ∧ Status.invalidConfiguration.code = 1 ∧ Status.dimensionMismatch.code = 2 ∧
  Status.valueOutOfRange.code = 3 ∧ Status.signedValueOutOfRange.code = 4 ∧ Status.notConfigured.code = 5 ∧
  Status.illegalCommand.code = 6 ∧ Status.tableIndexOutOfRange.code = 7

/-! ### The configuration -/

/-- After reset VALID = 0, D = 0, B = 0, NSTEPS = 0, no response was given, and the invariant holds. -/
def Obligations.ResetIsUnconfigured : Prop :=
  State.reset.engine.valid = false ∧ State.reset.engine.d = 0 ∧ State.reset.engine.b = 0 ∧
    State.reset.engine.nsteps = 0 ∧ State.reset.responses = [] ∧ State.reset.engine.Inv

/-- The invariant is kept by every step: no codec, or the whole table of a legal (D, B). -/
def Obligations.StepKeepsInvariant : Prop :=
  ∀ s t : State, s.engine.Inv → step s = .next t → t.engine.Inv

/-- R29 (a) to (e) hold while VALID = 1 in every state that meets the invariant, and every CFG that succeeds, from any state
at all, establishes them. -/
def Obligations.ConfigurationInvariants : Prop :=
  (∀ e : Engine, e.Inv → e.valid = true → e.TableInvariants) ∧
  ∀ (d b : Byte) (s t : State), LegalPair d.toNat b.toNat → exec (.cfg d b) s = .next t →
    t.engine.valid = true ∧ t.engine.TableInvariants

/-- CFG with a legal pair succeeds from any state: the codec of (d, b) is there, whatever was there before; entries past
the new NSTEPS, V and C stay, and nothing else of the machine changes. -/
def Obligations.CfgConfigures : Prop :=
  ∀ (d b : Byte) (s : State), LegalPair d.toNat b.toNat →
    ∃ e, exec (.cfg d b) s = .next (s.answer e .ok 0) ∧ e.Configured d.toNat b.toNat ∧
      e.v = s.engine.v ∧ e.c = s.engine.c ∧
      ∀ (j : Nat) (h : j < 7), (tables d.toNat b.toNat).mask.length ≤ j →
        e.mask[j] = s.engine.mask[j] ∧ e.lshift[j] = s.engine.lshift[j] ∧ e.rshift[j] = s.engine.rshift[j]

/-- R76: CFG succeeds exactly on the pairs with 1 <= d, 1 <= b, d*b <= 64, and there are 280 of them. -/
def Obligations.CfgSucceedsOnLegalPairs : Prop :=
  (∀ (d b : Byte) (s : State),
    (EndsIn (.cfg d b) s .ok ↔ (1 ≤ d.toNat ∧ 1 ≤ b.toNat ∧ d.toNat * b.toNat ≤ 64)) ∧
    (EndsIn (.cfg d b) s .invalidConfiguration ↔ (d = 0 ∨ b = 0 ∨ 64 < d.toNat * b.toNat))) ∧
  ((List.range 256).map fun d => ((List.range 256).filter fun b => decide (LegalPair d b)).length).sum = 280

/-- The registers and the commands that write them (the table of R20): the configuration only by a CFG with a legal pair,
V only by SETV, UNPACK and SUNPACK, C only by SETC, PACK and SPACK. -/
def Obligations.EachRegisterHasItsWriters : Prop :=
  ∀ (i : Instr) (s t : State), exec i s = .next t →
    (SameConfig s.engine t.engine ∨ ∃ d b, i = .cfg d b ∧ LegalPair d.toNat b.toNat) ∧
    (t.engine.v = s.engine.v ∨ (∃ k, i = .setv k) ∨ i = .unpack ∨ i = .sunpack) ∧
    (t.engine.c = s.engine.c ∨ i = .setc ∨ (∃ n, i = .pack n) ∨ ∃ n, i = .spack n)

/-- R85: a pass with shift s, a power of two up to s0, is kept exactly if some k in 0..B-1 has k*(D-1) & s nonzero; its
mask is the OR of 1 << (k + s*floor(k*(D-1)/s)); the table is entry 0, then the kept passes by decreasing s. -/
def Obligations.TablesClosedForm : Prop :=
  ∀ d b : Nat, LegalPair d b →
    let s0 := if b = 1 then 0 else 2 ^ (d * (b - 1)).log2
    let kept := [32, 16, 8, 4, 2, 1].filter fun s =>
      decide (s ≤ s0) && (List.range b).any fun k => (k * (d - 1)) &&& s != 0
    (tables d b).lshift = 0 :: kept.map (BitVec.ofNat 64) ∧
    (tables d b).mask =
      BitVec.ofNat 64 (2 ^ b - 1) ::
        kept.map fun s => (List.range b).foldl (fun m k => m ||| (1#64 <<< (k + s * (k * (d - 1) / s)))) 0

/-- R84 (a) to (e), for every legal pair. -/
def Obligations.TableProperties : Prop :=
  ∀ d b : Nat, LegalPair d b →
    (∃ ss : List Data, (tables d b).lshift = 0 :: ss ∧ ss.Sublist [32, 16, 8, 4, 2, 1]) ∧
    (1 ≤ (tables d b).mask.length ∧ (tables d b).mask.length ≤ 7 ∧
      (tables d b).lshift.length = (tables d b).mask.length ∧ (tables d b).rshift.length = (tables d b).mask.length) ∧
    ((tables d b).mask.length = 1 ↔ b = 1 ∨ d = 1) ∧
    ((tables d b).mask.length = 7 ↔ (d, b) ∈
      [(4, 12), (4, 13), (4, 14), (4, 15), (4, 16), (6, 8), (6, 9), (6, 10), (8, 6), (8, 7), (8, 8), (10, 5), (10, 6),
       (12, 4), (12, 5), (14, 4), (16, 4)]) ∧
    (∃ m, (tables d b).mask.getLast? = some m ∧ ∀ p, m.getLsbD p = (decide (p % d = 0) && decide (p / d < b))) ∧
    (∀ l, (tables d b).lshift.getLast? = some l → ∀ k, k < b → k * (d - 1) % l.toNat = 0) ∧
    (∀ m ∈ (tables d b).mask, ((List.range 64).filter fun p => m.getLsbD p).length = b)

/-- RDCFG, word 0x0000000C, answers the configuration word from any state: VALID in bit 0, D in 15:8, B in 23:16, NSTEPS in 31:24, every
other bit 0; it writes nothing; it is 0 while VALID = 0; after cfg 2, 32 it is 0x0000000006200201. -/
def Obligations.RdcfgReturnsConfiguration : Prop :=
  encode .rdcfg = 0x0000000C ∧ ∀ s : State, ∃ x, exec .rdcfg s = .next (s.answer s.engine .ok x) ∧
    x.getLsbD 0 = s.engine.valid ∧ x.extractLsb' 1 7 = 0 ∧
    (x.extractLsb' 8 8).toNat = s.engine.d.toNat ∧ (x.extractLsb' 16 8).toNat = s.engine.b.toNat ∧
    (x.extractLsb' 24 8).toNat = s.engine.nsteps.toNat ∧ x.extractLsb' 32 32 = 0 ∧
    (s.engine.Inv → s.engine.valid = false → x = 0) ∧
    ∀ t, exec (.cfg 2 32) s = .next t → exec .rdcfg t = .next (t.answer t.engine .ok 0x0000000006200201)

/-- RDT answers, with a codec of (d, b) and j < NSTEPS, entry j of the array selected, and writes nothing. -/
def Obligations.RdtReadsTable : Prop :=
  ∀ (s : State) (d b : Nat) (j : Byte), s.engine.Configured d b → j.toNat < (tables d b).mask.length →
    ∃ m l r, (tables d b).mask[j.toNat]? = some m ∧ (tables d b).lshift[j.toNat]? = some l ∧
      (tables d b).rshift[j.toNat]? = some r ∧
      exec (.rdt .mask j) s = .next (s.answer s.engine .ok m) ∧
      exec (.rdt .lshift j) s = .next (s.answer s.engine .ok l) ∧
      exec (.rdt .rshift j) s = .next (s.answer s.engine .ok r)

/-! ### Spread and gather -/

/-- R96: bit k of x moves to bit k*D, every other bit is 0 (of x only the low B bits count, R95); the corner cases. -/
def Obligations.SpreadMovesBits : Prop :=
  ∀ (e : Engine) (d b : Nat), e.Configured d b →
    (∀ (x : Data) (p : Nat),
      (e.spread x).getLsbD p = (decide (p % d = 0) && decide (p / d < b) && x.getLsbD (p / d))) ∧
    (b - 1) * d ≤ 63 ∧
    (d = 1 → e.nsteps = 1 ∧ ∀ x : Data, (e.spread x).toNat = x.toNat % 2 ^ b) ∧
    (b = 1 → ∀ x : Data, (e.spread x).toNat = (x.getLsbD 0).toNat) ∧
    e.spread 0 = 0 ∧
    (tables d b).mask.getLast? = some (e.spread (BitVec.ofNat 64 (2 ^ b - 1)))

/-- R99: Gather(x) is the B-bit value whose bit k is x[k*D]; it undoes Spread up to the low B bits, and Spread of it is x
masked by the last mask; the corner cases. -/
def Obligations.GatherCollectsBits : Prop :=
  ∀ (e : Engine) (d b : Nat), e.Configured d b →
    (∀ (x : Data) (k : Nat), (e.gather x).getLsbD k = (decide (k < b) && x.getLsbD (k * d))) ∧
    (∀ v : Data, (e.gather (e.spread v)).toNat = v.toNat % 2 ^ b) ∧
    (∀ x m : Data, (tables d b).mask.getLast? = some m → e.spread (e.gather x) = x &&& m) ∧
    (d = 1 → ∀ x : Data, (e.gather x).toNat = x.toNat % 2 ^ b) ∧
    (b = 1 → ∀ x : Data, (e.gather x).toNat = (x.getLsbD 0).toNat)

/-! ### PACK and UNPACK -/

/-- R103: PACK with the right count and every lane in range succeeds; bit k*D + i of the code is bit k of V[i], every bit at
or above B*D is 0; only C is written; the code is also the sum of the spread and shifted lanes. -/
def Obligations.PackInterleavesBits : Prop :=
  ∀ (s : State) (n : Byte) (d b : Nat), s.engine.Configured d b → n.toNat = d → s.engine.LanesInRange d →
    ∃ code : Data, exec (.pack n) s = .next (s.answer { s.engine with c := code } .ok code) ∧
      (∀ (i : Fin 64) (k : Nat), i.val < d → k < b → code.getLsbD (k * d + i.val) = (s.engine.lane i).getLsbD k) ∧
      (∀ p, b * d ≤ p → code.getLsbD p = false) ∧
      code.toNat = ((List.finRange 64).map fun i =>
        if i.val < d then (s.engine.spread (s.engine.lane i) <<< i.val).toNat else 0).sum

/-- Every code with its bits at and above B*D clear is the result of exactly one tuple of D values in range. -/
def Obligations.PackIsBijection : Prop :=
  ∀ (s : State) (d b : Nat), s.engine.Configured d b → ∀ code : Data, code.toNat < 2 ^ (b * d) →
    ∃! xs : List Data, xs.length = d ∧ (∀ x ∈ xs, x.toNat < 2 ^ b) ∧
      exec (.pack (countByte d)) { s with engine := s.engine.staged xs } =
        .next ({ s with engine := s.engine.staged xs }.answer { s.engine.staged xs with c := code } .ok code)

/-- R106: UNPACK always succeeds with a codec; bit k of the new V[i] is bit k*D + i of C, its bits from B on are 0; V[D] ..
V[63], C and the configuration stay; bits of C at or above B*D have no effect. -/
def Obligations.UnpackExtractsBits : Prop :=
  ∀ (s : State) (d b : Nat), s.engine.Configured d b →
    ∃ e : Engine, exec .unpack s = .next (s.answer e .ok 0) ∧
      (∀ (i : Fin 64) (k : Nat), i.val < d →
        (e.lane i).getLsbD k = (decide (k < b) && s.engine.c.getLsbD (k * d + i.val))) ∧
      (∀ i : Fin 64, d ≤ i.val → e.lane i = s.engine.lane i) ∧
      SameConfig s.engine e ∧ e.c = s.engine.c ∧
      ∀ c' : Data, (∀ p, p < b * d → c'.getLsbD p = s.engine.c.getLsbD p) →
        exec .unpack { s with engine := { s.engine with c := c' } } =
          .next ({ s with engine := { s.engine with c := c' } }.answer { e with c := c' } .ok 0)

/-- PACK reads nothing but the configuration and V[0] .. V[D-1]; UNPACK and SUNPACK nothing but the configuration and C. -/
def Obligations.PackAndUnpackArePure : Prop :=
  ∀ s t : State, SameConfig s.engine t.engine →
    ((∀ k : Fin 64, k.val < s.engine.d.toNat → t.engine.lane k = s.engine.lane k) →
      ∀ n : Byte, ∃ st x e f, exec (.pack n) s = .next (s.answer e st x) ∧ exec (.pack n) t = .next (t.answer f st x) ∧
        (st = .ok → e = { s.engine with c := x } ∧ f = { t.engine with c := x })) ∧
    (t.engine.c = s.engine.c → ∀ i : Instr, i = .unpack ∨ i = .sunpack →
      ∃ st x e f, exec i s = .next (s.answer e st x) ∧ exec i t = .next (t.answer f st x) ∧
        (s.engine.valid = true → ∀ k : Fin 64, k.val < s.engine.d.toNat → f.lane k = e.lane k))

/-! ### SPACK and SUNPACK -/

/-- R116: SignEnc of a value in range is below 2^B, holds the magnitude in its low B-1 bits and the sign in bit B-1, and is
never the pattern with the sign set and the magnitude 0. -/
def Obligations.SignEncIsSignMagnitude : Prop :=
  ∀ (b : Nat) (sv : Int), 1 ≤ b → b ≤ 64 → -(2 ^ (b - 1) : Int) < sv → sv < (2 ^ (b - 1) : Int) →
    (signEnc b sv).toNat < 2 ^ b ∧ (signEnc b sv).toNat % 2 ^ (b - 1) = sv.natAbs ∧
      (signEnc b sv).getLsbD (b - 1) = decide (sv < 0) ∧ (signEnc b sv).toNat ≠ 2 ^ (b - 1) ∧
      signEnc b 0 = 0 ∧ (b = 1 → sv = 0) ∧ sv.natAbs ≤ 2 ^ 63 - 1

/-- R117: the accepted values are -(2^(B-1) - 1) .. 2^(B-1) - 1, both boundary magnitudes rejected. -/
def Obligations.SignedRangeIsSymmetric : Prop :=
  ∀ (b : Nat) (x : Data), 1 ≤ b → b ≤ 64 →
    (signedOutOfRange b x = false ↔ -(2 ^ (b - 1) - 1 : Int) ≤ x.toInt ∧ x.toInt ≤ (2 ^ (b - 1) - 1 : Int)) ∧
    (x.toInt = (2 ^ (b - 1) : Int) ∨ x.toInt = -(2 ^ (b - 1) : Int) → signedOutOfRange b x = true)

/-- R118: SignDec(u) is u mod 2^(B-1), negated if bit B-1 is set; it lies in the signed range and undoes SignEnc; SignEnc undoes SignDec except on the pattern 2^(B-1), which
decodes to 0. -/
def Obligations.SignDecInvertsSignEnc : Prop :=
  ∀ b : Nat, 1 ≤ b → b ≤ 64 →
    (∀ sv : Int, -(2 ^ (b - 1) : Int) < sv → sv < (2 ^ (b - 1) : Int) → signDec b (signEnc b sv) = BitVec.ofInt 64 sv) ∧
    (∀ u : Data, u.toNat < 2 ^ b →
      (signDec b u).toInt =
        (if u.getLsbD (b - 1) then -((u.toNat % 2 ^ (b - 1) : Nat) : Int) else ((u.toNat % 2 ^ (b - 1) : Nat) : Int)) ∧
      -(2 ^ (b - 1) : Int) < (signDec b u).toInt ∧ (signDec b u).toInt < (2 ^ (b - 1) : Int) ∧
      (u.toNat = 2 ^ (b - 1) → signDec b u = 0) ∧
      (u.toNat ≠ 2 ^ (b - 1) → signEnc b (signDec b u).toInt = u))

/-- SPACK with the right count and every lane in signed range succeeds: in lane i of the code, bit B-1 is the sign of V[i]
and the bits below are its magnitude; only C is written. -/
def Obligations.SpackInterleavesSignMagnitude : Prop :=
  ∀ (s : State) (n : Byte) (d b : Nat), s.engine.Configured d b → n.toNat = d → s.engine.LanesInSignedRange d →
    ∃ code : Data, exec (.spack n) s = .next (s.answer { s.engine with c := code } .ok code) ∧
      (∀ i : Fin 64, i.val < d →
        code.getLsbD ((b - 1) * d + i.val) = decide ((s.engine.lane i).toInt < 0) ∧
        ∀ k, k < b - 1 → code.getLsbD (k * d + i.val) = (s.engine.lane i).toInt.natAbs.testBit k) ∧
      ∀ p, b * d ≤ p → code.getLsbD p = false

/-- SUNPACK always succeeds with a codec: V[i] is lane i of C read as sign and magnitude; V[D] .. V[63], C and the
configuration stay. -/
def Obligations.SunpackDecodesSignMagnitude : Prop :=
  ∀ (s : State) (d b : Nat), s.engine.Configured d b →
    ∃ e : Engine, exec .sunpack s = .next (s.answer e .ok 0) ∧
      (∀ i : Fin 64, i.val < d →
        ∃ mag : Nat, mag < 2 ^ (b - 1) ∧ (∀ k, k < b - 1 → mag.testBit k = s.engine.c.getLsbD (k * d + i.val)) ∧
          (e.lane i).toInt = if s.engine.c.getLsbD ((b - 1) * d + i.val) then -(mag : Int) else (mag : Int)) ∧
      (∀ i : Fin 64, d ≤ i.val → e.lane i = s.engine.lane i) ∧
      SameConfig s.engine e ∧ e.c = s.engine.c

/-- R124: SPACK with its inputs in range does to C and RDATA what PACK does with the lane registers holding the encodings;
SUNPACK leaves in V[i], i < D, the SignDec of what UNPACK leaves; after `spack` of -3 with B = 4, `unpack` gives 0xB. -/
def Obligations.SignedCommandsViaUnsigned : Prop :=
  (∀ (s : State) (n : Byte), s.engine.Inv → s.engine.LanesInSignedRange n.toNat →
    ∃ st x e f, exec (.spack n) s = .next (s.answer e st x) ∧
      exec (.pack n) { s with engine := { s.engine with v := s.engine.v.map fun y : Data => signEnc s.engine.b.toNat y.toInt } } =
        .next ({ s with engine :=
          { s.engine with v := s.engine.v.map fun y : Data => signEnc s.engine.b.toNat y.toInt } }.answer f st x) ∧
      e.c = f.c) ∧
  (∀ s : State, s.engine.valid = true →
    ∃ e f, exec .unpack s = .next (s.answer e .ok 0) ∧ exec .sunpack s = .next (s.answer f .ok 0) ∧
      ∀ i : Fin 64, i.val < s.engine.d.toNat → f.lane i = signDec s.engine.b.toNat (e.lane i)) ∧
  (∀ (s : State) (n : Byte) (d : Nat) (i : Fin 64), s.engine.Configured d 4 → n.toNat = d →
    s.engine.LanesInSignedRange d → i.val < d → s.engine.lane i = BitVec.ofInt 64 (-3) →
    ∃ t u, exec (.spack n) s = .next t ∧ exec .unpack t = .next u ∧ u.engine.lane i = 0xB)

/-! ### SETV, GETV, SETC, GETC -/

/-- SETV i writes WDATA to V[i], in every configuration, and nothing else. -/
def Obligations.SetvWritesOneLane : Prop :=
  ∀ (i : Fin 64) (s : State), ∃ e, exec (.setv i) s = .next (s.answer e .ok 0) ∧
    e.lane i = s.wdata ∧ (∀ k : Fin 64, k ≠ i → e.lane k = s.engine.lane k) ∧ SameConfig s.engine e ∧ e.c = s.engine.c

/-- GETV i answers V[i], in every configuration, and writes nothing. -/
def Obligations.GetvReturnsLane : Prop :=
  ∀ (i : Fin 64) (s : State), exec (.getv i) s = .next (s.answer s.engine .ok s.engine.v[i])

/-- SETC writes WDATA to C and nothing else; GETC answers C and writes nothing. -/
def Obligations.SetcAndGetcMoveTheCode : Prop :=
  ∀ s : State, exec .setc s = .next (s.answer { s.engine with c := s.wdata } .ok 0) ∧
    exec .getc s = .next (s.answer s.engine .ok s.engine.c)

/-- R134: what SETV and SETC store is what a later GETV and GETC return, if nothing between writes the register; the four
write no configuration, CFG writes neither V nor C, and a legal transfer command always succeeds. -/
def Obligations.TransfersPersist : Prop :=
  (∀ (k : Fin 64) (x y : Data) (mids rest : List Input) (s : State),
    (∀ m ∈ mids, m.commandIs (keepsLane k) = true) →
    s.inputs = .request (requestOf (.setv k) x) :: (mids ++ .request (requestOf (.getv k) y) :: rest) →
    ∃ t, Runs (mids.length + 2) s t ∧ t.responses.getLast? = some ⟨.ok, x⟩) ∧
  (∀ (x y : Data) (mids rest : List Input) (s : State),
    (∀ m ∈ mids, m.commandIs writesNoCode = true) →
    s.inputs = .request (requestOf .setc x) :: (mids ++ .request (requestOf .getc y) :: rest) →
    ∃ t, Runs (mids.length + 2) s t ∧ t.responses.getLast? = some ⟨.ok, x⟩) ∧
  (∀ (i : Instr) (s : State), (∃ k, i = .setv k) ∨ (∃ k, i = .getv k) ∨ i = .setc ∨ i = .getc →
    ∃ e x, exec i s = .next (s.answer e .ok x) ∧ SameConfig s.engine e) ∧
  (∀ (d b : Byte) (s t : State), exec (.cfg d b) s = .next t → t.engine.v = s.engine.v ∧ t.engine.c = s.engine.c)

/-! ### The statuses -/

/-- R146: InvalidConfiguration is raised by CFG and by no other command, when d = 0 or b = 0 or d*b > 64; RDATA is
(d << 8) | (b << 16) and the configuration is untouched. -/
def Obligations.InvalidConfigurationExactly : Prop :=
  (∀ (i : Instr) (s : State), EndsIn i s .invalidConfiguration ↔
    ∃ d b : Byte, i = .cfg d b ∧ (d = 0 ∨ b = 0 ∨ 64 < d.toNat * b.toNat)) ∧
  (∀ (d b : Byte) (s : State), d = 0 ∨ b = 0 ∨ 64 < d.toNat * b.toNat →
    FailsWith (.cfg d b) s .invalidConfiguration ((d.setWidth 64 <<< 8) ||| (b.setWidth 64 <<< 16))) ∧
  decode 0x00080901 = .legal (.cfg 9 8) ∧ ∀ s : State, FailsWith (.cfg 9 8) s .invalidConfiguration 0x0000000000080900

/-- R147, with the order of R154: DimensionMismatch is raised by PACK and SPACK when n differs from D (for SPACK, when no
value among V[0] .. V[n-1] is out of signed range); RDATA is (D << 8) | (n << 16), and C is not written. -/
def Obligations.DimensionMismatchExactly : Prop :=
  (∀ (i : Instr) (s : State), EndsIn i s .dimensionMismatch ↔
    s.engine.valid = true ∧ ∃ n : Byte, n.toNat ≠ s.engine.d.toNat ∧
      (i = .pack n ∨ (i = .spack n ∧ s.engine.LanesInSignedRange n.toNat))) ∧
  (∀ (n : Byte) (s : State) (i : Instr), i = .pack n ∨ i = .spack n → EndsIn i s .dimensionMismatch →
    FailsWith i s .dimensionMismatch ((s.engine.d.setWidth 64 <<< 8) ||| (n.setWidth 64 <<< 16))) ∧
  (decode 0x00000F02 = .legal (.pack 15) ∧
    ∀ s : State, s.engine.Configured 16 4 → FailsWith (.pack 15) s .dimensionMismatch 0x00000000000F1000)

/-- R148: ValueOutOfRange is raised by PACK only, after the count was found equal to D, when some V[i], i < D, is >= 2^B;
RDATA is V[i] for the least such i, and nothing is written. -/
def Obligations.ValueOutOfRangeExactly : Prop :=
  (∀ (i : Instr) (s : State), EndsIn i s .valueOutOfRange →
    ∃ n, i = .pack n ∧ n.toNat = s.engine.d.toNat ∧ ∃ x, FailsWith i s .valueOutOfRange x) ∧
  (∀ (n : Byte) (s : State) (x : Data), FailsWith (.pack n) s .valueOutOfRange x ↔
    s.engine.valid = true ∧ n.toNat = s.engine.d.toNat ∧
      ∃ k : Fin 64, k.val < s.engine.d.toNat ∧ x = s.engine.lane k ∧ 2 ^ s.engine.b.toNat ≤ x.toNat ∧
        s.engine.LanesInRange k.val) ∧
  (∀ (s : State) (n : Byte), s.engine.b.toNat = 64 → ¬ EndsIn (.pack n) s .valueOutOfRange) ∧
  (∀ s : State, s.engine.Configured 16 4 → s.engine.lane 3 = 16 → s.engine.LanesInRange 3 →
    FailsWith (.pack 16) s .valueOutOfRange 0x0000000000000010)

/-- R149: SignedValueOutOfRange is raised by SPACK only, before the count is looked at, when some V[i], i < n, is outside
the signed range; RDATA is the 64-bit pattern V[i] for the least such i, and nothing is written. -/
def Obligations.SignedValueOutOfRangeExactly : Prop :=
  (∀ (i : Instr) (s : State), EndsIn i s .signedValueOutOfRange →
    ∃ n, i = .spack n ∧ ∃ x, FailsWith i s .signedValueOutOfRange x) ∧
  (∀ (n : Byte) (s : State) (x : Data), FailsWith (.spack n) s .signedValueOutOfRange x ↔
    s.engine.valid = true ∧
      ∃ k : Fin 64, k.val < n.toNat ∧ x = s.engine.lane k ∧
        ((2 ^ (s.engine.b.toNat - 1) : Int) ≤ x.toInt ∨ x.toInt ≤ -(2 ^ (s.engine.b.toNat - 1) : Int)) ∧
        s.engine.LanesInSignedRange k.val) ∧
  (∀ s : State, s.engine.Configured 2 4 → s.engine.LanesInSignedRange 1 → s.engine.lane 1 = BitVec.ofInt 64 (-8) →
    FailsWith (.spack 2) s .signedValueOutOfRange 0xFFFFFFFFFFFFFFF8)

/-- R150: NotConfigured is raised by PACK, UNPACK, SPACK, SUNPACK and RDT exactly while VALID = 0, with RDATA 0; CFG, RDCFG,
SETV, GETV, SETC and GETC never raise it; VALID is 0 at reset and turns 1 by the first CFG of a legal pair, to stay 1. -/
def Obligations.NotConfiguredExactly : Prop :=
  (∀ (i : Instr) (s : State), EndsIn i s .notConfigured ↔
    s.engine.valid = false ∧
      ((∃ n, i = .pack n) ∨ i = .unpack ∨ (∃ n, i = .spack n) ∨ i = .sunpack ∨ ∃ t j, i = .rdt t j)) ∧
  (∀ (i : Instr) (s : State), EndsIn i s .notConfigured → FailsWith i s .notConfigured 0) ∧
  (State.reset.engine.valid = false ∧ ∀ (i : Instr) (s t : State), exec i s = .next t →
    (t.engine.valid = true ↔ s.engine.valid = true ∨ ∃ d b, i = .cfg d b ∧ LegalPair d.toNat b.toNat)) ∧
  decode 0x00000202 = .legal (.pack 2) ∧ FailsWith (.pack 2) State.reset .notConfigured 0

/-- R151: IllegalCommand is raised for every illegal word and for no other, whatever the state; RDATA is the word. -/
def Obligations.IllegalCommandExactly : Prop :=
  (∀ (w : CmdWord) (s : State) (x : Data),
    (∃ e, execWord w s = .next (s.answer e .illegalCommand x)) ↔ (∃ why, decode w = .illegal why) ∧ x = w.setWidth 64) ∧
  ∀ s : State, execWord 0x00004102 s = .next (s.answer s.engine .illegalCommand 0x0000000000004102)

/-- R152: TableIndexOutOfRange is raised by RDT only, when VALID = 1 and j >= NSTEPS; RDATA is (NSTEPS << 8) | (j << 16), and
nothing is written. -/
def Obligations.TableIndexOutOfRangeExactly : Prop :=
  (∀ (i : Instr) (s : State), EndsIn i s .tableIndexOutOfRange ↔
    s.engine.valid = true ∧ ∃ t j, i = .rdt t j ∧ s.engine.nsteps.toNat ≤ j.toNat) ∧
  (∀ (t : TableArray) (j : Byte) (s : State), EndsIn (.rdt t j) s .tableIndexOutOfRange →
    FailsWith (.rdt t j) s .tableIndexOutOfRange
      ((s.engine.nsteps.setWidth 64 <<< 8) ||| (j.setWidth 64 <<< 16))) ∧
  (decode 0x0001000D = .legal (.rdt .mask 1) ∧
    ∀ s : State, s.engine.Configured 64 1 → FailsWith (.rdt .mask 1) s .tableIndexOutOfRange 0x0000000000010100)

/-! ### Runs -/

/-- R107: a PACK that succeeds, then any requests without CFG, SETC, PACK or SPACK, then UNPACK, gives the lanes back; and
PACK after UNPACK gives the old code with its bits at and above B*D cleared. -/
def Obligations.PackUnpackRoundTrip : Prop :=
  (∀ (s : State) (n : Byte) (x y : Data) (mids rest : List Input) (d b : Nat),
    s.engine.Configured d b → n.toNat = d → s.engine.LanesInRange d →
    (∀ m ∈ mids, m.commandIs keepsCode = true) →
    s.inputs = .request (requestOf (.pack n) x) :: (mids ++ .request (requestOf .unpack y) :: rest) →
    ∃ t, Runs (mids.length + 2) s t ∧ t.inputs = rest ∧
      ∀ i : Fin 64, i.val < d → t.engine.lane i = s.engine.lane i) ∧
  (∀ (s : State) (n : Byte) (d b : Nat), s.engine.Configured d b → n.toNat = d →
    ∃ t u, exec .unpack s = .next t ∧ exec (.pack n) t = .next u ∧
      u.engine.c.toNat = s.engine.c.toNat % 2 ^ (b * d))

/-- R123: an SPACK that succeeds, then any requests without CFG, SETC, PACK or SPACK, then SUNPACK, gives the signed lanes
back; and SPACK after SUNPACK gives the old code below bit B*D, except that a lane 2^(B-1) comes back as 0. -/
def Obligations.SpackSunpackRoundTrip : Prop :=
  (∀ (s : State) (n : Byte) (x y : Data) (mids rest : List Input) (d b : Nat),
    s.engine.Configured d b → n.toNat = d → s.engine.LanesInSignedRange d →
    (∀ m ∈ mids, m.commandIs keepsCode = true) →
    s.inputs = .request (requestOf (.spack n) x) :: (mids ++ .request (requestOf .sunpack y) :: rest) →
    ∃ t, Runs (mids.length + 2) s t ∧ t.inputs = rest ∧
      ∀ i : Fin 64, i.val < d → t.engine.lane i = s.engine.lane i) ∧
  (∀ (s : State) (n : Byte) (d b : Nat), s.engine.Configured d b → n.toNat = d →
    ∃ t u, exec .sunpack s = .next t ∧ exec (.spack n) t = .next u ∧
      (∀ p, b * d ≤ p → u.engine.c.getLsbD p = false) ∧
      ∀ (i k : Nat), i < d → k < b → u.engine.c.getLsbD (k * d + i) =
        (s.engine.c.getLsbD (k * d + i) &&
          !((List.range b).all fun q => s.engine.c.getLsbD (q * d + i) == decide (q = b - 1))))

/-- From ANY state, the host sequence cfg d, b; setv ..; pack D; unpack; getv .. of a legal (d, b) and D values in range
ends with the D values as the last D responses. -/
def Obligations.HostPackThenUnpackReturnsValues : Prop :=
  ∀ (s : State) (d b : Nat) (xs : List Data) (rest : List Input),
    LegalPair d b → xs.length = d → (∀ x ∈ xs, x.toNat < 2 ^ b) →
    ∃ cs ps, constructSequence d b = some cs ∧ packSequence xs = some ps ∧
      (s.inputs = asInputs (cs ++ ps ++ requestOf .unpack 0 :: readOut d) ++ rest →
        ∃ t rs, Runs (cs ++ ps ++ requestOf .unpack 0 :: readOut d).length s t ∧ t.inputs = rest ∧
          rs.length = d + 3 ∧ t.responses = s.responses ++ rs ++ xs.map (⟨.ok, ·⟩))

/-- From ANY state, the host sequence cfg d, b; setv ..; spack D; sunpack; getv .. of a legal (d, b) and D signed values in
range ends with the 64-bit two's-complement patterns of the D values as the last D responses. -/
def Obligations.HostSpackThenSunpackReturnsValues : Prop :=
  ∀ (s : State) (d b : Nat) (vs : List Int) (rest : List Input),
    LegalPair d b → vs.length = d → (∀ v ∈ vs, -(2 ^ (b - 1) : Int) < v ∧ v < (2 ^ (b - 1) : Int)) →
    ∃ cs ps, constructSequence d b = some cs ∧ spackSequence (vs.map tc64) = some ps ∧
      (s.inputs = asInputs (cs ++ ps ++ requestOf .sunpack 0 :: readOut d) ++ rest →
        ∃ t rs, Runs (cs ++ ps ++ requestOf .sunpack 0 :: readOut d).length s t ∧ t.inputs = rest ∧
          rs.length = d + 3 ∧ t.responses = s.responses ++ rs ++ vs.map fun v => ⟨.ok, BitVec.ofInt 64 v⟩)

/-- From a configured engine the host sequences setc code; unpack; getv .. and setc code; sunpack; getv .. answer, for ANY
code, its D lanes in order, unsigned or read as sign and magnitude. -/
def Obligations.HostUnpackReturnsLanesOfCode : Prop :=
  ∀ (s : State) (d b : Nat) (code : Data) (rest : List Input), s.engine.Configured d b →
    (s.inputs = asInputs (unpackSequence code d) ++ rest →
      ∃ t, ∃ xs : List Data, Runs (d + 2) s t ∧ t.inputs = rest ∧ xs.length = d ∧ t.engine.c = code ∧
        t.responses = s.responses ++ ⟨.ok, 0⟩ :: ⟨.ok, 0⟩ :: xs.map (⟨.ok, ·⟩) ∧
        ∀ i k : Nat, i < d → (xs.getD i 0).getLsbD k = (decide (k < b) && code.getLsbD (k * d + i))) ∧
    (s.inputs = asInputs (sunpackSequence code d) ++ rest →
      ∃ t, ∃ xs : List Data, Runs (d + 2) s t ∧ t.inputs = rest ∧ xs.length = d ∧ t.engine.c = code ∧
        t.responses = s.responses ++ ⟨.ok, 0⟩ :: ⟨.ok, 0⟩ :: xs.map (⟨.ok, ·⟩) ∧
        ∀ i : Nat, i < d → ∃ mag : Nat, mag < 2 ^ (b - 1) ∧
          (∀ k, k < b - 1 → mag.testBit k = code.getLsbD (k * d + i)) ∧
          (xs.getD i 0).toInt = if code.getLsbD ((b - 1) * d + i) then -(mag : Int) else (mag : Int))

/-- R69, R136: packv and spackv are setv 0 .. setv k-1 and then pack k or spack k; they end as that command ends with
argument j staged in V[j], whatever the order in which the lanes are staged. -/
def Obligations.PackvStagesThenPacks : Prop :=
  (∀ vs : List Int, vs.length ≤ 64 → (∀ v ∈ vs, -(2 ^ 63) ≤ v ∧ v < 2 ^ 64) →
    (AsmLine.packv vs).requests = packSequence (vs.map tc64) ∧ (packSequence (vs.map tc64)).isSome = true ∧
    (AsmLine.spackv vs).requests = spackSequence (vs.map tc64) ∧ (spackSequence (vs.map tc64)).isSome = true) ∧
  (∀ (s : State) (xs : List Data) (order : List (Data × Nat)) (rest : List Input) (i : Instr),
    xs.length ≤ 64 → order.Perm xs.zipIdx →
    i = .pack (countByte xs.length) ∨ i = .spack (countByte xs.length) →
    s.inputs = asInputs (order.map fun p => ⟨commandWord Opcode.setv.byte (BitVec.ofNat 8 p.2) 0, p.1⟩) ++
      .request (requestOf i 0) :: rest →
    ∃ t, Runs (xs.length + 1) s t ∧
      exec i { s with engine := s.engine.staged xs, inputs := rest, wdata := 0,
                      responses := s.responses ++ List.replicate xs.length ⟨.ok, 0⟩ } = .next t)
end

