-- ==== Sys2Proof/Laws/Decode.lean ====
section
/-! SUPPORT. The fields of a command word, and the inverses of the three small encodings of an operand. -/

namespace Sys2Proof

@[simp] theorem opField_commandWord (op a b : Byte) : opField (commandWord op a b) = op := by
  ext i hi
  simp only [opField, commandWord, BitVec.getElem_extractLsb', BitVec.getLsbD_append]
  simp [hi]

@[simp] theorem aField_commandWord (op a b : Byte) : aField (commandWord op a b) = a := by
  ext i hi
  simp only [aField, commandWord, BitVec.getElem_extractLsb', BitVec.getLsbD_append]
  simp [hi]

@[simp] theorem bField_commandWord (op a b : Byte) : bField (commandWord op a b) = b := by
  ext i hi
  have h₁ : ¬ 16 + i < 8 := by omega
  have h₂ : ¬ 16 + i - 8 < 8 := by omega
  have h₃ : 16 + i - 8 - 8 = i := by omega
  simp only [bField, commandWord, BitVec.getElem_extractLsb', BitVec.getLsbD_append]
  simp [h₁, h₂, h₃, hi]

@[simp] theorem rsvField_commandWord (op a b : Byte) : rsvField (commandWord op a b) = 0 := by
  ext i hi
  have h₁ : ¬ 24 + i < 8 := by omega
  have h₂ : ¬ 24 + i - 8 < 8 := by omega
  have h₃ : ¬ 24 + i - 8 - 8 < 8 := by omega
  simp only [rsvField, commandWord, BitVec.getElem_extractLsb', BitVec.getLsbD_append]
  simp [h₁, h₂, h₃]

/-- A word is its four fields. -/
theorem word_of_fields (w : CmdWord) (h : rsvField w = 0) : commandWord (opField w) (aField w) (bField w) = w := by
  have hw : rsvField w ++ bField w ++ aField w ++ opField w = w := by
    ext i hi
    simp only [BitVec.getElem_append, opField, aField, bField, rsvField, BitVec.getElem_extractLsb']
    rcases (by omega : i < 8 ∨ (8 ≤ i ∧ i < 16) ∨ (16 ≤ i ∧ i < 24) ∨ 24 ≤ i) with h1 | h1 | h1 | h1
    · simp [h1, BitVec.getLsbD_eq_getElem, hi]
    · have h2 : ¬ i < 8 := by omega
      have h3 : i - 8 < 8 := by omega
      have h4 : 8 + (i - 8) = i := by omega
      simp [h2, h3, h4, BitVec.getLsbD_eq_getElem, hi]
    · have h2 : ¬ i < 8 := by omega
      have h3 : ¬ i - 8 < 8 := by omega
      have h4 : i - 8 - 8 < 8 := by omega
      have h5 : 16 + (i - 8 - 8) = i := by omega
      simp [h2, h3, h4, h5, BitVec.getLsbD_eq_getElem, hi]
    · have h2 : ¬ i < 8 := by omega
      have h3 : ¬ i - 8 < 8 := by omega
      have h4 : ¬ i - 8 - 8 < 8 := by omega
      have h5 : 24 + (i - 8 - 8 - 8) = i := by omega
      simp [h2, h3, h4, h5, BitVec.getLsbD_eq_getElem, hi]
  rw [h] at hw
  exact hw

theorem opcodeOf_byte (o : Opcode) : opcodeOf o.byte = some o := by cases o <;> decide

theorem opcodeOf_eq_some {op : Byte} {o : Opcode} (h : opcodeOf op = some o) : o.byte = op := by
  have := List.find?_some h
  simpa using this

theorem tableArrayOf_selector (t : TableArray) : tableArrayOf t.selector = some t := by cases t <;> decide

theorem tableArrayOf_eq_some {a : Byte} {t : TableArray} (h : tableArrayOf a = some t) : t.selector = a := by
  have := List.find?_some h
  simpa using this

@[simp] theorem laneByte_toNat (i : Fin 64) : (laneByte i).toNat = i.val := by
  have := i.isLt
  simp only [laneByte, BitVec.toNat_ofNat]
  omega

end Sys2Proof
end

