-- ==== Sys2Proof/Laws/State.lean ====
section
/-! SUPPORT. One lemma per field per named update of the state, so that no later proof unfolds a record update. -/

namespace Sys2Proof.Machine

/-! ### State.answer -/

@[simp] theorem State.answer_engine (s : State) (e : Engine) (st : Status) (x : Data) :
    (s.answer e st x).engine = e := rfl
@[simp] theorem State.answer_inputs (s : State) (e : Engine) (st : Status) (x : Data) :
    (s.answer e st x).inputs = s.inputs := rfl
@[simp] theorem State.answer_wdata (s : State) (e : Engine) (st : Status) (x : Data) :
    (s.answer e st x).wdata = s.wdata := rfl
@[simp] theorem State.answer_responses (s : State) (e : Engine) (st : Status) (x : Data) :
    (s.answer e st x).responses = s.responses ++ [⟨st, x⟩] := rfl
@[simp] theorem State.answer_resets (s : State) (e : Engine) (st : Status) (x : Data) :
    (s.answer e st x).resets = s.resets := rfl

/-- Two answers of one state are the same only when the engine, the status and the word are. -/
theorem State.answer_inj {s : State} {e f : Engine} {st su : Status} {x y : Data} :
    s.answer e st x = s.answer f su y ↔ e = f ∧ st = su ∧ x = y := by
  simp [State.answer]

/-! ### State.accept, State.takeReset, State.present -/

@[simp] theorem State.accept_engine (s : State) (x : Data) (rest : List Input) :
    (s.accept x rest).engine = s.engine := rfl
@[simp] theorem State.accept_inputs (s : State) (x : Data) (rest : List Input) :
    (s.accept x rest).inputs = rest := rfl
@[simp] theorem State.accept_wdata (s : State) (x : Data) (rest : List Input) : (s.accept x rest).wdata = x := rfl
@[simp] theorem State.accept_responses (s : State) (x : Data) (rest : List Input) :
    (s.accept x rest).responses = s.responses := rfl
@[simp] theorem State.accept_resets (s : State) (x : Data) (rest : List Input) :
    (s.accept x rest).resets = s.resets := rfl

@[simp] theorem State.takeReset_engine (s : State) (rest : List Input) :
    (s.takeReset rest).engine = Engine.resetAt (s.resets + 1) := rfl
@[simp] theorem State.takeReset_inputs (s : State) (rest : List Input) : (s.takeReset rest).inputs = rest := rfl
@[simp] theorem State.takeReset_wdata (s : State) (rest : List Input) : (s.takeReset rest).wdata = s.wdata := rfl
@[simp] theorem State.takeReset_responses (s : State) (rest : List Input) :
    (s.takeReset rest).responses = s.responses := rfl
@[simp] theorem State.takeReset_resets (s : State) (rest : List Input) :
    (s.takeReset rest).resets = s.resets + 1 := rfl

@[simp] theorem State.present_engine (s : State) (r : Request) : (s.present r).engine = s.engine := rfl
@[simp] theorem State.present_inputs (s : State) (r : Request) : (s.present r).inputs = .request r :: s.inputs := rfl

@[simp] theorem Engine.resetAt_valid (k : Nat) : (Engine.resetAt k).valid = false := rfl
@[simp] theorem Engine.resetAt_d (k : Nat) : (Engine.resetAt k).d = 0 := rfl
@[simp] theorem Engine.resetAt_b (k : Nat) : (Engine.resetAt k).b = 0 := rfl
@[simp] theorem Engine.resetAt_nsteps (k : Nat) : (Engine.resetAt k).nsteps = 0 := rfl

/-! ### Engine.setLane, Engine.setCode, Engine.writeLanes, Engine.staged -/

@[simp] theorem Engine.setLane_valid (e : Engine) (i : Fin 64) (x : Data) : (e.setLane i x).valid = e.valid := rfl
@[simp] theorem Engine.setLane_d (e : Engine) (i : Fin 64) (x : Data) : (e.setLane i x).d = e.d := rfl
@[simp] theorem Engine.setLane_b (e : Engine) (i : Fin 64) (x : Data) : (e.setLane i x).b = e.b := rfl
@[simp] theorem Engine.setLane_nsteps (e : Engine) (i : Fin 64) (x : Data) : (e.setLane i x).nsteps = e.nsteps := rfl
@[simp] theorem Engine.setLane_mask (e : Engine) (i : Fin 64) (x : Data) : (e.setLane i x).mask = e.mask := rfl
@[simp] theorem Engine.setLane_lshift (e : Engine) (i : Fin 64) (x : Data) : (e.setLane i x).lshift = e.lshift := rfl
@[simp] theorem Engine.setLane_rshift (e : Engine) (i : Fin 64) (x : Data) : (e.setLane i x).rshift = e.rshift := rfl
@[simp] theorem Engine.setLane_c (e : Engine) (i : Fin 64) (x : Data) : (e.setLane i x).c = e.c := rfl

@[simp] theorem Engine.setCode_valid (e : Engine) (x : Data) : (e.setCode x).valid = e.valid := rfl
@[simp] theorem Engine.setCode_d (e : Engine) (x : Data) : (e.setCode x).d = e.d := rfl
@[simp] theorem Engine.setCode_b (e : Engine) (x : Data) : (e.setCode x).b = e.b := rfl
@[simp] theorem Engine.setCode_nsteps (e : Engine) (x : Data) : (e.setCode x).nsteps = e.nsteps := rfl
@[simp] theorem Engine.setCode_mask (e : Engine) (x : Data) : (e.setCode x).mask = e.mask := rfl
@[simp] theorem Engine.setCode_lshift (e : Engine) (x : Data) : (e.setCode x).lshift = e.lshift := rfl
@[simp] theorem Engine.setCode_rshift (e : Engine) (x : Data) : (e.setCode x).rshift = e.rshift := rfl
@[simp] theorem Engine.setCode_v (e : Engine) (x : Data) : (e.setCode x).v = e.v := rfl
@[simp] theorem Engine.setCode_c (e : Engine) (x : Data) : (e.setCode x).c = x := rfl

@[simp] theorem Engine.writeLanes_valid (e : Engine) (f : Nat → Data) : (e.writeLanes f).valid = e.valid := rfl
@[simp] theorem Engine.writeLanes_d (e : Engine) (f : Nat → Data) : (e.writeLanes f).d = e.d := rfl
@[simp] theorem Engine.writeLanes_b (e : Engine) (f : Nat → Data) : (e.writeLanes f).b = e.b := rfl
@[simp] theorem Engine.writeLanes_nsteps (e : Engine) (f : Nat → Data) : (e.writeLanes f).nsteps = e.nsteps := rfl
@[simp] theorem Engine.writeLanes_mask (e : Engine) (f : Nat → Data) : (e.writeLanes f).mask = e.mask := rfl
@[simp] theorem Engine.writeLanes_lshift (e : Engine) (f : Nat → Data) : (e.writeLanes f).lshift = e.lshift := rfl
@[simp] theorem Engine.writeLanes_rshift (e : Engine) (f : Nat → Data) : (e.writeLanes f).rshift = e.rshift := rfl
@[simp] theorem Engine.writeLanes_c (e : Engine) (f : Nat → Data) : (e.writeLanes f).c = e.c := rfl

@[simp] theorem Engine.staged_valid (e : Engine) (xs : List Data) : (e.staged xs).valid = e.valid := rfl
@[simp] theorem Engine.staged_d (e : Engine) (xs : List Data) : (e.staged xs).d = e.d := rfl
@[simp] theorem Engine.staged_b (e : Engine) (xs : List Data) : (e.staged xs).b = e.b := rfl
@[simp] theorem Engine.staged_nsteps (e : Engine) (xs : List Data) : (e.staged xs).nsteps = e.nsteps := rfl
@[simp] theorem Engine.staged_mask (e : Engine) (xs : List Data) : (e.staged xs).mask = e.mask := rfl
@[simp] theorem Engine.staged_lshift (e : Engine) (xs : List Data) : (e.staged xs).lshift = e.lshift := rfl
@[simp] theorem Engine.staged_rshift (e : Engine) (xs : List Data) : (e.staged xs).rshift = e.rshift := rfl
@[simp] theorem Engine.staged_c (e : Engine) (xs : List Data) : (e.staged xs).c = e.c := rfl

/-! ### Engine.configure -/

@[simp] theorem Engine.configure_valid (e : Engine) (d b : Byte) : (e.configure d b).valid = true := rfl
@[simp] theorem Engine.configure_d (e : Engine) (d b : Byte) : (e.configure d b).d = d.setWidth 7 := rfl
@[simp] theorem Engine.configure_b (e : Engine) (d b : Byte) : (e.configure d b).b = b.setWidth 7 := rfl
@[simp] theorem Engine.configure_nsteps (e : Engine) (d b : Byte) :
    (e.configure d b).nsteps = BitVec.ofNat 3 (tables d.toNat b.toNat).mask.length := rfl
@[simp] theorem Engine.configure_mask (e : Engine) (d b : Byte) :
    (e.configure d b).mask = overwrite (tables d.toNat b.toNat).mask e.mask := rfl
@[simp] theorem Engine.configure_lshift (e : Engine) (d b : Byte) :
    (e.configure d b).lshift = overwrite (tables d.toNat b.toNat).lshift e.lshift := rfl
@[simp] theorem Engine.configure_rshift (e : Engine) (d b : Byte) :
    (e.configure d b).rshift = overwrite (tables d.toNat b.toNat).rshift e.rshift := rfl
@[simp] theorem Engine.configure_v (e : Engine) (d b : Byte) : (e.configure d b).v = e.v := rfl
@[simp] theorem Engine.configure_c (e : Engine) (d b : Byte) : (e.configure d b).c = e.c := rfl

end Sys2Proof.Machine
end

