-- ==== Sys2Proof/Laws/Ops.lean ====
section
/-! SUPPORT. What each shared operation can do, said once: the register accesses, the two ways to end a command, the check
of VALID. -/

namespace Sys2Proof.Machine

/-! ### Ending a command -/

theorem respond_next (x : Data) (e : Engine) (s : State) : respond x e s = .next (s.answer e .ok x) := rfl

theorem raise_next (st : Status) (x : Data) (s : State) : raise st x s = .next (s.answer s.engine st x) := rfl

theorem whenConfigured_of_valid {s : State} (k : Result) (h : s.engine.valid = true) : whenConfigured s k = k := by
  simp [whenConfigured, h]

theorem whenConfigured_of_not_valid {s : State} (k : Result) (h : s.engine.valid = false) :
    whenConfigured s k = .next (s.answer s.engine .notConfigured 0) := by
  simp [whenConfigured, h, raise_next]

/-! ### Lanes -/

theorem Engine.lane_eq (e : Engine) (i : Fin 64) : e.lane i = e.v[i.val] := rfl

theorem Engine.lane_setLane (e : Engine) (i k : Fin 64) (x : Data) :
    (e.setLane i x).lane k = if i = k then x else e.lane k := by
  simp [Engine.lane_eq, Engine.setLane, Vector.getElem_set, Fin.ext_iff]

theorem Engine.lane_writeLanes (e : Engine) (f : Nat → Data) (k : Fin 64) :
    (e.writeLanes f).lane k = if k.val < e.d.toNat then f k.val else e.lane k := by
  simp [Engine.lane_eq, Engine.writeLanes, replaceLanes]

theorem Engine.lane_staged (e : Engine) (xs : List Data) (k : Fin 64) :
    (e.staged xs).lane k = xs.getD k.val (e.lane k) := by
  simp [Engine.lane_eq, Engine.staged, stagedLanes]

/-- Two engines with the same lanes have the same lane registers. -/
theorem Engine.v_ext {e f : Engine} (h : ∀ k : Fin 64, e.lane k = f.lane k) : e.v = f.v := by
  ext i hi : 1
  exact h ⟨i, hi⟩

theorem Engine.length_lanes (e : Engine) (n : Nat) : (e.lanes n).length = min n 64 := by
  simp [Engine.lanes]

theorem Engine.getElem_lanes (e : Engine) (n i : Nat) (h : i < (e.lanes n).length) :
    (e.lanes n)[i] = e.lane ⟨i, by rw [Engine.length_lanes] at h; omega⟩ := by
  simp [Engine.lanes, Engine.lane_eq]

theorem Engine.mem_lanes {e : Engine} {n : Nat} {x : Data} :
    x ∈ e.lanes n ↔ ∃ k : Fin 64, k.val < n ∧ e.lane k = x := by
  simp only [List.mem_iff_getElem, Engine.getElem_lanes, Engine.length_lanes]
  constructor
  · rintro ⟨i, h, rfl⟩
    exact ⟨⟨i, by omega⟩, by simp; omega, rfl⟩
  · rintro ⟨k, h, rfl⟩
    exact ⟨k.val, by have := k.isLt; omega, rfl⟩

/-- The lanes below n depend on no lane register at or above n. -/
theorem Engine.lanes_congr {e f : Engine} {n : Nat} (h : ∀ k : Fin 64, k.val < n → f.lane k = e.lane k) :
    f.lanes n = e.lanes n := by
  apply List.ext_getElem
  · simp [Engine.length_lanes]
  · intro i h₁ h₂
    rw [Engine.getElem_lanes, Engine.getElem_lanes]
    rw [Engine.length_lanes] at h₁
    exact h _ (by simp; omega)

/-! ### Range checks -/

theorem firstUnsignedOffender_none {b : Nat} {xs : List Data} :
    firstUnsignedOffender b xs = none ↔ ∀ x ∈ xs, x.toNat < 2 ^ b := by
  simp [firstUnsignedOffender, unsignedOutOfRange]

theorem signedOutOfRange_false {b : Nat} {x : Data} :
    signedOutOfRange b x = false ↔ -(2 ^ (b - 1) : Int) < x.toInt ∧ x.toInt < (2 ^ (b - 1) : Int) := by
  rw [signedOutOfRange, decide_eq_false_iff_not, not_or, not_le, not_le]
  exact And.comm

theorem firstSignedOffender_none {b : Nat} {xs : List Data} :
    firstSignedOffender b xs = none ↔
      ∀ x ∈ xs, -(2 ^ (b - 1) : Int) < x.toInt ∧ x.toInt < (2 ^ (b - 1) : Int) := by
  simp only [firstSignedOffender, List.find?_eq_none, Bool.not_eq_true, signedOutOfRange_false]

theorem invalidPair_false {d b : Byte} : invalidPair d b = false ↔ LegalPair d.toNat b.toNat := by
  have hd : d = 0 ↔ d.toNat = 0 := by simp [BitVec.toNat_eq]
  have hb : b = 0 ↔ b.toNat = 0 := by simp [BitVec.toNat_eq]
  simp only [invalidPair, Bool.or_eq_false_iff, beq_eq_false_iff_ne, ne_eq, decide_eq_false_iff_not, LegalPair, not_lt,
    and_assoc]
  rw [hd, hb, Nat.one_le_iff_ne_zero, Nat.one_le_iff_ne_zero]

end Sys2Proof.Machine
end

