-- ==== Sys2Proof/Laws/PerInstr.lean ====
section
/-! SUPPORT. One law per command: the word of a well-formed command matches its row of the opcode table (R59). -/

namespace Sys2Proof.Laws.TableRow

/-- The word of a well-formed command agrees with its row's `match` on the bits its row's `mask` fixes (R59). -/
def Statement (i : Instr) : Prop := i.wellFormed = true → encode i &&& i.opcode.rowMask = i.opcode.rowMatch

/-- Masking a command word masks its fields. -/
theorem commandWord_and (op a b op' a' b' rsv' : Byte) :
    commandWord op a b &&& (rsv' ++ b' ++ a' ++ op' : CmdWord) = commandWord (op &&& op') (a &&& a') (b &&& b') := by
  unfold commandWord
  rw [BitVec.and_append, BitVec.and_append, BitVec.and_append, BitVec.zero_and]

/-- A count of at most 64 leaves bit 15 of the word 0. -/
theorem count_row (op n : Byte) (h : n.toNat ≤ 64) : commandWord op n 0 &&& 0xFFFF80FF = commandWord op 0 0 := by
  have hn : n &&& 0x80#8 = 0 := by
    have all : ∀ m : Fin 65, BitVec.ofNat 8 m.val &&& 0x80#8 = 0 := by decide
    simpa using all ⟨n.toNat, by omega⟩
  have hm : (0xFFFF80FF : CmdWord) = 0xFF#8 ++ 0xFF#8 ++ 0x80#8 ++ 0xFF#8 := by decide
  rw [hm, commandWord_and, hn, show (0xFF#8 : Byte) = BitVec.allOnes 8 from rfl, BitVec.and_allOnes, BitVec.and_allOnes]

/-- A lane index of at most 63 leaves bits 15 and 14 of the word 0. -/
theorem lane_row (op : Byte) (i : Fin 64) : commandWord op (laneByte i) 0 &&& 0xFFFFC0FF = commandWord op 0 0 := by
  have hi : laneByte i &&& 0xC0#8 = 0 := by revert i; decide
  have hm : (0xFFFFC0FF : CmdWord) = 0xFF#8 ++ 0xFF#8 ++ 0xC0#8 ++ 0xFF#8 := by decide
  rw [hm, commandWord_and, hi, show (0xFF#8 : Byte) = BitVec.allOnes 8 from rfl, BitVec.and_allOnes, BitVec.and_allOnes]

theorem cfg (d b : Byte) : Statement (.cfg d b) := by
  intro _
  have hm : Opcode.cfg.rowMask = 0xFF#8 ++ 0#8 ++ 0#8 ++ 0xFF#8 := by decide
  simp only [encode, Instr.opcode, hm, commandWord_and, BitVec.and_zero]
  decide

theorem pack (n : Byte) : Statement (.pack n) := fun h =>
  (count_row _ n (by simpa [Instr.wellFormed] using h)).trans (by simp only [Instr.opcode]; decide)

theorem unpack : Statement .unpack := fun _ => by decide

theorem spack (n : Byte) : Statement (.spack n) := fun h =>
  (count_row _ n (by simpa [Instr.wellFormed] using h)).trans (by simp only [Instr.opcode]; decide)

theorem sunpack : Statement .sunpack := fun _ => by decide

theorem setv (i : Fin 64) : Statement (.setv i) := fun _ => (lane_row _ i).trans (by simp only [Instr.opcode]; decide)

theorem getv (i : Fin 64) : Statement (.getv i) := fun _ => (lane_row _ i).trans (by simp only [Instr.opcode]; decide)

theorem setc : Statement .setc := fun _ => by decide

theorem getc : Statement .getc := fun _ => by decide

theorem rdcfg : Statement .rdcfg := fun _ => by decide

theorem rdt (sel : TableArray) (j : Byte) : Statement (.rdt sel j) := by
  intro _
  have hm : Opcode.rdt.rowMask = 0xFF#8 ++ 0#8 ++ 0xFC#8 ++ 0xFF#8 := by decide
  simp only [encode, Instr.opcode, hm, commandWord_and, BitVec.and_zero]
  cases sel <;> decide

end Sys2Proof.Laws.TableRow
end

