-- ==== Sys2Proof/Laws/Table.lean ====
section
/-! SUPPORT. The table: its lengths, its shape, and what CFG installs. -/

namespace Sys2Proof.Machine

/-- Halving: a shift below 2^k allows at most k passes. -/
theorem passes_length_le (d b : Nat) :
    ∀ (fuel k : Nat) (s : Data), s.toNat < 2 ^ k → (passes d b fuel s).length ≤ k
  | 0, k, s, _ => by simp [passes]
  | fuel + 1, 0, s, h => by
    have : s = 0#64 := by apply BitVec.eq_of_toNat_eq; simp only [BitVec.toNat_ofNat]; omega
    simp [passes, this]
  | fuel + 1, k + 1, s, h => by
    have ih := passes_length_le d b fuel k (s >>> 1)
      (by simp only [BitVec.toNat_ushiftRight, Nat.shiftRight_eq_div_pow]; omega)
    simp only [passes]
    split
    · simp
    · split <;> simp <;> omega

theorem tables_lshift_length (d b : Nat) : (tables d b).lshift.length = (tables d b).mask.length := by
  simp [tables]

theorem tables_rshift_length (d b : Nat) : (tables d b).rshift.length = (tables d b).mask.length := by
  simp [tables, gatherShifts]

theorem tables_mask_length_pos (d b : Nat) : 1 ≤ (tables d b).mask.length := by
  simp [tables]

theorem getElem_overwrite (xs : List Data) (old : Vector Data 7) (j : Nat) (h : j < 7) :
    (overwrite xs old)[j] = xs.getD j old[j] := by
  simp [overwrite]

/-- What overwrite puts in the first entries is the list itself, when it fits. -/
theorem take_overwrite (xs : List Data) (old : Vector Data 7) (h : xs.length ≤ 7) :
    (overwrite xs old).toList.take xs.length = xs := by
  apply List.ext_getElem
  · simp [h]
  · intro j h₁ h₂
    have hj : j < 7 := by omega
    simp [overwrite, h₂]

/-- The steps of the spread are the table's masks and left shifts. -/
theorem Engine.spreadSteps_of_configured {e : Engine} {d b : Nat} (h : e.Configured d b) :
    e.spreadSteps = (tables d b).mask.zip (tables d b).lshift := by
  obtain ⟨-, -, -, -, -, hm, hl, -⟩ := h
  rw [Engine.spreadSteps, List.zip, List.take_zipWith, hm, hl]

/-- The steps of the gather are the table's masks and right shifts. -/
theorem Engine.gatherSteps_of_configured {e : Engine} {d b : Nat} (h : e.Configured d b) :
    e.gatherSteps = (tables d b).mask.zip (tables d b).rshift := by
  obtain ⟨-, -, -, -, -, hm, -, hr⟩ := h
  rw [Engine.gatherSteps, List.zip, List.take_zipWith, hm, hr]

/-- A pass distributes over OR, so the spread of a value is the OR of the spreads of its bits. -/
theorem spreadPass_or (x y : Data) (p : Data × Data) : spreadPass (x ||| y) p = spreadPass x p ||| spreadPass y p := by
  ext i hi
  simp only [spreadPass, BitVec.shiftLeft_eq', BitVec.getElem_and, BitVec.getElem_or, BitVec.getElem_shiftLeft]
  cases p.1[i] <;> cases x[i] <;> cases y[i] <;> simp [Bool.and_or_distrib_left]

theorem gatherPass_or (x y : Data) (p : Data × Data) : gatherPass p (x ||| y) = gatherPass p x ||| gatherPass p y := by
  ext i hi
  simp only [gatherPass, BitVec.ushiftRight_eq', BitVec.getElem_and, BitVec.getElem_or, BitVec.getElem_ushiftRight,
    BitVec.getLsbD_or]
  cases p.1[i] <;> cases x[i] <;> cases y[i] <;> simp

end Sys2Proof.Machine
end

