-- ==== Sys2Proof/Tests/Slice0.lean ====
section
/-! SUPPORT. Tests on small states: expected values are the spec's own vectors (95_test_vectors.md) and worked examples,
named in each docstring; the smoke tests of WellFormed; and, for each statement with hypotheses, a witness that meets
them. -/

namespace Sys2Proof.Tests

open Sys2Proof.Machine

/-! ### Small states -/

/-- An engine of (2, 4), table as in 95 section 2.2, lanes V[0] = x, V[1] = y, every other 0, code c. -/
def eng24 (x y c : Data) : Engine where
  valid := true
  d := 2
  b := 4
  nsteps := 3
  mask := #v[0x0F, 0x33, 0x55, 0, 0, 0, 0]
  lshift := #v[0, 2, 1, 0, 0, 0, 0]
  rshift := #v[2, 1, 0, 0, 0, 0, 0]
  v := ((Vector.replicate 64 0).set 0 x).set 1 y
  c := c

/-- An engine of (2, 2), table as in R75 and 95 section 2.2. -/
def eng22 (x y c : Data) : Engine :=
  { eng24 x y c with b := 2, nsteps := 2, mask := #v[0x3, 0x5, 0, 0, 0, 0, 0], lshift := #v[0, 1, 0, 0, 0, 0, 0],
                     rshift := #v[1, 0, 0, 0, 0, 0, 0] }

/-- An engine of (64, 1), every lane 1, table as in R87. -/
def eng641 : Engine :=
  { eng24 0 0 0 with d := 64, b := 1, nsteps := 1, mask := #v[0x1, 0, 0, 0, 0, 0, 0],
                     lshift := #v[0, 0, 0, 0, 0, 0, 0], rshift := #v[0, 0, 0, 0, 0, 0, 0], v := Vector.replicate 64 1 }

/-- An engine without a codec. -/
def engNone : Engine := { eng24 0 0 0 with valid := false, d := 0, b := 0, nsteps := 0 }

/-- A state with WDATA w, no input waiting and no response given. -/
def st (e : Engine) (w : Data) : State := { engine := e, inputs := [], wdata := w, responses := [], resets := 0 }

/-- The engine a result leaves. -/
def engineOf : Result → Option Engine
  | .next s => some s.engine
  | _ => none

/-- The last response a result has given. -/
def answerOf : Result → Option Response
  | .next s => s.responses.getLast?
  | _ => none

/-! ### WellFormed refuses a count above 64 (R62(f)) -/

theorem test_wf_pack_65_refused : (Instr.pack 65).wellFormed = false := by decide
theorem test_wf_spack_65_refused : (Instr.spack 65).wellFormed = false := by decide
theorem test_wf_pack_64 : (Instr.pack 64).wellFormed = true ∧ (Instr.spack 0).wellFormed = true := by decide

/-! ### Words written out from the patterns of R59, rsv b a op -/

theorem test_decode_cfg : decode 0b00000000_00100000_00000010_00000001#32 = .legal (.cfg 2 32) := by decide
theorem test_decode_pack : decode 0b00000000_00000000_01000000_00000010#32 = .legal (.pack 64) := by decide
theorem test_decode_unpack : decode 0b00000000_00000000_00000000_00000011#32 = .legal .unpack := by decide
theorem test_decode_spack : decode 0b00000000_00000000_00000101_00000100#32 = .legal (.spack 5) := by decide
theorem test_decode_sunpack : decode 0b00000000_00000000_00000000_00000101#32 = .legal .sunpack := by decide
theorem test_decode_setv : decode 0b00000000_00000000_00111110_00001000#32 = .legal (.setv 62) := by decide
theorem test_decode_getv : decode 0b00000000_00000000_00100001_00001001#32 = .legal (.getv 33) := by decide
theorem test_decode_setc : decode 0b00000000_00000000_00000000_00001010#32 = .legal .setc := by decide
theorem test_decode_getc : decode 0b00000000_00000000_00000000_00001011#32 = .legal .getc := by decide
theorem test_decode_rdcfg : decode 0b00000000_00000000_00000000_00001100#32 = .legal .rdcfg := by decide
theorem test_decode_rdt : decode 0b00000000_10000001_00000001_00001101#32 = .legal (.rdt .lshift 129) := by decide

/-- Illegal words of 95 section 2.1, one for each clause of R62. -/
theorem test_decode_illegal :
    decode 0x01020201 = .illegal .reservedByte ∧ decode 0x00000006 = .illegal .reservedOpcode ∧
    decode 0x00010003 = .illegal .unusedOperand ∧ decode 0x00010002 = .illegal .unusedOperand ∧
    decode 0x00004008 = .illegal .laneIndex ∧ decode 0x00007F02 = .illegal .count ∧
    decode 0x0000030D = .illegal .selector := by decide

theorem test_table_word : decodeTableWord 32 0x0006020D = some (.rdt .rshift 6) ∧ decodeTableWord 32 0x4104 = none := by
  decide

/-! ### Tables (R87, 95 section 2.2) -/

theorem test_tables_2_3 : tables 2 3 = ⟨[0x7, 0x13, 0x15], [0, 2, 1], [2, 1, 0]⟩ := by decide +kernel
theorem test_tables_10_6 : tables 10 6 =
    ⟨[0x3F, 0x300000000F, 0x30000C0003, 0x201008040201, 0x2010008040201, 0x2010020100201, 0x4010040100401],
     [0, 32, 16, 8, 4, 2, 1], [32, 16, 8, 4, 2, 1, 0]⟩ := by decide +kernel
theorem test_tables_1_64 : tables 1 64 = ⟨[0xFFFFFFFFFFFFFFFF], [0], [0]⟩ := by decide +kernel

/-! ### Spread and gather (R97, R100) -/

theorem test_spread_trace : (eng24 0 0 0).spread 0xB = 0x45 := by decide
theorem test_gather_trace : (eng24 0 0 0).gather 0x67 = 0xB := by decide

/-! ### The commands -/

/-- R75: cfg 2, 2 over the codec (2, 4): the new table, the entry past it and C kept. -/
theorem test_cfg_2_2 : engineOf (exec (.cfg 2 2) (st (eng24 16 9 0x5A) 7)) =
    some { eng22 16 9 0x5A with mask := #v[0x3, 0x5, 0x55, 0, 0, 0, 0], lshift := #v[0, 1, 1, 0, 0, 0, 0],
                                rshift := #v[1, 0, 0, 0, 0, 0, 0] } := by decide +kernel
/-- R146: cfg 9, 8. -/
theorem test_cfg_9_8 : answerOf (exec (.cfg 9 8) (st engNone 7)) = some ⟨.invalidConfiguration, 0x80900⟩ := by decide

/-- 95 section 2.1: V = 3, 5 packs to 0x27. -/
theorem test_pack : answerOf (exec (.pack 2) (st (eng24 3 5 0) 7)) = some ⟨.ok, 0x27⟩ ∧
    engineOf (exec (.pack 2) (st (eng24 3 5 0) 7)) = some (eng24 3 5 0x27) := by decide +kernel
/-- 95 section 2.9 row 8: the count before the values. -/
theorem test_pack_count_first : answerOf (exec (.pack 3) (st (eng24 16 0 0) 7)) = some ⟨.dimensionMismatch, 0x30200⟩ := by
  decide

/-- T5-U1: bits of C at and above B*D are ignored. -/
theorem test_unpack : engineOf (exec .unpack (st (eng24 1 2 0xFFFFFFFFFFFFFFFF) 7)) =
    some (eng24 0xF 0xF 0xFFFFFFFFFFFFFFFF) := by decide
/-- 95 section 2.7 row 10: no codec. -/
theorem test_unpack_unconfigured : answerOf (exec .unpack (st engNone 7)) = some ⟨.notConfigured, 0⟩ := by decide

/-- T6-1: (-3, 5) under (2, 4). -/
theorem test_spack : answerOf (exec (.spack 2) (st (eng24 0xFFFFFFFFFFFFFFFD 5 0) 7)) = some ⟨.ok, 0x67⟩ := by decide
/-- 95 section 2.9 row 13: the values before the count. -/
theorem test_spack_values_first : answerOf (exec (.spack 1) (st (eng24 8 0 0) 7)) = some ⟨.signedValueOutOfRange, 8⟩ := by
  decide

/-- T6-U1: 0x67 under (2, 4) is (-3, 5). -/
theorem test_sunpack : engineOf (exec .sunpack (st (eng24 0 0 0x67) 7)) = some (eng24 0xFFFFFFFFFFFFFFFD 5 0x67) := by decide
/-- T6-U3: 0xA under (2, 2) is (0, -1). -/
theorem test_sunpack_2_2 : engineOf (exec .sunpack (st (eng22 1 1 0xA) 7)) = some (eng22 0 0xFFFFFFFFFFFFFFFF 0xA) := by
  decide

/-- 95 section 2.7 row 2: setv 63 without a codec. -/
theorem test_setv_63 : (engineOf (exec (.setv 63) (st engNone 0x8000000000000001))).map (fun e => e.lane 63) =
    some 0x8000000000000001 := by decide
theorem test_getv_1 : answerOf (exec (.getv 1) (st (eng24 11 5 0x67) 7)) = some ⟨.ok, 5⟩ := by decide
/-- R132: setc -1. -/
theorem test_setc : engineOf (exec .setc (st (eng24 1 2 3) 0xFFFFFFFFFFFFFFFF)) =
    some (eng24 1 2 0xFFFFFFFFFFFFFFFF) := by decide
theorem test_getc : answerOf (exec .getc (st (eng24 1 2 0x67) 7)) = some ⟨.ok, 0x67⟩ := by decide
/-- 95 section 2.8 row 12. -/
theorem test_rdcfg : answerOf (exec .rdcfg (st (eng22 0 0 0) 7)) = some ⟨.ok, 0x2020201⟩ := by decide
/-- R89: rdt mask, 1 and rdt rshift, 0 under (2, 2). -/
theorem test_rdt : answerOf (exec (.rdt .mask 1) (st (eng22 0 0 0) 7)) = some ⟨.ok, 5⟩ ∧
    answerOf (exec (.rdt .rshift 0) (st (eng22 0 0 0) 7)) = some ⟨.ok, 1⟩ := by decide
/-- 95 section 2.8 row 14. -/
theorem test_rdt_past_table : answerOf (exec (.rdt .mask 2) (st (eng22 0 0 0) 7)) =
    some ⟨.tableIndexOutOfRange, 0x20200⟩ := by decide

/-! ### The step -/

/-- R150: pack 2 as the first command after reset. -/
theorem test_first_command : answerOf (step (State.reset.withFetchWord 32 0x202)) = some ⟨.notConfigured, 0⟩ := by decide
/-- R151: pack 65. -/
theorem test_step_illegal : answerOf (step ((st (eng24 1 2 3) 7).withFetchWord 32 0x4102)) =
    some ⟨.illegalCommand, 0x4102⟩ := by decide
/-- R170: `rst` with a command in flight: no response, no codec. -/
theorem test_step_rst : (engineOf (step { st (eng24 1 2 3) 7 with inputs := [.rst (some ⟨0x202, 0⟩)] })).map
    (fun e => (e.valid, e.d, e.b, e.nsteps)) = some (false, 0, 0, 0) := by decide

/-! ### Assembler lines (R68, R69) -/

/-- `setv 63, -1 # x`. -/
theorem test_asm_setv : assembleLine
    ['s', 'e', 't', 'v', ' ', '6', '3', ',', ' ', '-', '1', ' ', '#', ' ', 'x'] =
    some [⟨0x00003F08, 0xFFFFFFFFFFFFFFFF⟩] := by decide +kernel
/-- `rdt rshift, 0x1` (R70). -/
theorem test_asm_rdt : assembleLine
    ['r', 'd', 't', ' ', 'r', 's', 'h', 'i', 'f', 't', ',', ' ', '0', 'x', '1'] = some [⟨0x0001020D, 0⟩] := by
  decide +kernel
/-- `packv 1, 2` (R133's example). -/
theorem test_asm_packv : (AsmLine.packv [1, 2]).requests = some [⟨0x8, 1⟩, ⟨0x108, 2⟩, ⟨0x202, 0⟩] := by decide +kernel

/-! ### Witnesses: states and operands that meet the hypotheses of the statements -/

/-- Hypotheses of SpreadMovesBits, GatherCollectsBits, PackInterleavesBits, SpackInterleavesSignMagnitude,
SunpackDecodesSignMagnitude, SignedCommandsViaUnsigned and of the second halves of the two round trips: the engine is
configured with (d, b), the count is d, the lanes are in both ranges, the invariant holds. -/
theorem witness_configured_in_range :
    (eng24 7 5 0x67).Configured 2 4 ∧ (2 : Byte).toNat = 2 ∧ (eng24 7 5 0x67).LanesInRange 2 ∧
      (eng24 7 5 0x67).LanesInSignedRange 2 ∧ (eng24 7 5 0x67).Inv := by decide +kernel
/-- The same at the largest D, and a lane at the largest value. -/
theorem witness_configured_64_1 : eng641.Configured 64 1 ∧ eng641.LanesInRange 64 ∧ (64 : Byte).toNat = 64 := by
  decide +kernel
theorem witness_DecodeEncode : (Instr.pack 64).wellFormed = true := by decide
theorem witness_EncodeDecode : decode 0x00004002 = .legal (.pack 64) := by decide
theorem witness_IllegalWordsExactly : ∃ why, decode 0x00000000 = .illegal why := ⟨.reservedOpcode, by decide⟩
/-- A word of a row whose command it is, and a word of a row that is illegal. -/
theorem witness_WordsMatchOneRow : decode 0x202 = .legal (.pack 2) ∧ (0x202#32 &&& Opcode.pack.rowMask = Opcode.pack.rowMatch) ∧
    (0x4102#32 &&& Opcode.pack.rowMask = Opcode.pack.rowMatch) ∧ decode 0x4102 = .illegal .count := by decide
/-- A legal and an illegal request first in line. -/
theorem witness_StepRunsDecodedCommand : ((st engNone 0).withFetchWord 32 0xC).inputs = .request ⟨0xC, 0⟩ :: [] ∧
    decode 0xC = .legal .rdcfg ∧ ((st engNone 0).withFetchWord 32 0xE).inputs = .request ⟨0xE, 0⟩ :: [] ∧
    decode 0xE = .illegal .reservedOpcode := by decide
theorem witness_ResetInputUnconfigures :
    ({ st (eng24 1 2 3) 7 with inputs := [.rst none, .rst none] } : State).inputs = .rst none :: [.rst none] := by decide
theorem witness_IdleKeepsState : (st (eng24 1 2 3) 7).inputs = [] := by decide
theorem witness_RequestsAnsweredInOrder :
    ({ st (eng24 1 2 3) 7 with inputs := [.request ⟨0xB, 0⟩, .request ⟨0, 0⟩, .rst none] } : State).inputs =
      asInputs ([⟨0xB, 0⟩] ++ [⟨0, 0⟩]) ++ [.rst none] := by decide
theorem witness_OnlySetvSetcReadWdata : (∀ k, Instr.getc ≠ .setv k) ∧ Instr.getc ≠ .setc := by decide
/-- Two states with the same engine and WDATA and another past and future. -/
theorem witness_ResponseDependsOnEngineOnly :
    ({ st (eng24 1 2 3) 7 with inputs := [.rst none], responses := [⟨.ok, 1⟩], resets := 4 } : State).engine =
      (st (eng24 1 2 3) 7).engine ∧
    ({ st (eng24 1 2 3) 7 with inputs := [.rst none], responses := [⟨.ok, 1⟩], resets := 4 } : State).wdata =
      (st (eng24 1 2 3) 7).wdata := by decide
/-- The invariant holds in a state with a codec and in one without, and the step answers a next state there. -/
theorem witness_StepKeepsInvariant : (eng24 1 2 3).Inv ∧ engNone.Inv ∧
    engineOf (step ((st (eng24 1 2 3) 7).withFetchWord 32 0xB)) = some (eng24 1 2 3) := by decide +kernel
theorem witness_ConfigurationInvariants : eng641.Inv ∧ eng641.valid = true ∧
    LegalPair (64 : Byte).toNat (1 : Byte).toNat ∧ (engineOf (exec (.cfg 64 1) (st engNone 0))).isSome = true := by decide +kernel
/-- Legal pairs at the boundaries, and an entry past the new table. -/
theorem witness_CfgConfigures : LegalPair (64 : Byte).toNat (1 : Byte).toNat ∧ LegalPair (1 : Byte).toNat (64 : Byte).toNat ∧
    (tables 64 1).mask.length ≤ 6 := by decide +kernel
theorem witness_EachRegisterHasItsWriters : exec .getc (st (eng24 1 2 3) 7) =
    .next { st (eng24 1 2 3) 7 with responses := [⟨.ok, 3⟩] } := by rfl
/-- Hypothesis of TablesClosedForm and TableProperties. -/
theorem witness_legal_pair_tables : LegalPair 16 4 ∧ LegalPair 1 64 := by decide
/-- RDCFG's clause about an engine without a codec, and its clause about cfg 2, 32. -/
theorem witness_RdcfgReturnsConfiguration : engNone.Inv ∧ engNone.valid = false ∧
    (engineOf (exec (.cfg 2 32) (st engNone 7))).isSome = true := by decide +kernel
theorem witness_RdtReadsTable : (eng24 0 0 0).Configured 2 4 ∧ (2 : Byte).toNat < (tables 2 4).mask.length := by decide +kernel
/-- Clauses d = 1 and b = 1 of the transforms. -/
theorem witness_transform_corners : ((eng22 0 0 0).configure 1 64).Configured 1 64 ∧ eng641.Configured 64 1 ∧
    (tables 64 1).mask.getLast? = some 1 := by decide +kernel
theorem witness_PackIsBijection : (eng24 0 0 0).Configured 2 4 ∧ (0xFF : Data).toNat < 2 ^ (4 * 2) := by decide +kernel
/-- Two codes that agree below bit B*D. -/
theorem witness_UnpackExtractsBits : (eng24 0 0 0x67).Configured 2 4 ∧
    ∀ p, p < 4 * 2 → (0xF00000067 : Data).getLsbD p = (eng24 0 0 0x67).c.getLsbD p := by decide +kernel
/-- Two states that agree on the configuration, the first D lanes and C, and differ in another lane. -/
theorem witness_PackAndUnpackArePure :
    SameConfig (eng24 1 2 3) ((eng24 1 2 3).setLane 9 9) ∧
    (∀ k : Fin 64, k.val < (eng24 1 2 3).d.toNat → ((eng24 1 2 3).setLane 9 9).lane k = (eng24 1 2 3).lane k) ∧
    ((eng24 1 2 3).setLane 9 9).c = (eng24 1 2 3).c ∧ (eng24 1 2 3).valid = true := by decide +kernel
/-- Hypotheses of SignEncIsSignMagnitude, SignedRangeIsSymmetric and SignDecInvertsSignEnc: signed values at both ends of the range, for B = 1, B = 4 and B = 64. -/
theorem witness_sign_mapping : (-(2 ^ (4 - 1) : Int) < -7 ∧ (-7 : Int) < 2 ^ (4 - 1)) ∧
    (-(2 ^ (1 - 1) : Int) < 0 ∧ (0 : Int) < 2 ^ (1 - 1)) ∧
    (-(2 ^ (64 - 1) : Int) < 9223372036854775807 ∧ (9223372036854775807 : Int) < 2 ^ (64 - 1)) ∧
    (0x8 : Data).toNat = 2 ^ (4 - 1) ∧ (0xF : Data).toNat < 2 ^ 4 ∧
    (0xFFFFFFFFFFFFFFF8 : Data).toInt = -(2 ^ (4 - 1) : Int) := by decide +kernel
/-- SPACK of -3 with B = 4 (R124's example). -/
theorem witness_SignedCommandsViaUnsigned : (eng24 0xFFFFFFFFFFFFFFFD 5 0).Configured 2 4 ∧
    (eng24 0xFFFFFFFFFFFFFFFD 5 0).LanesInSignedRange 2 ∧
    (eng24 0xFFFFFFFFFFFFFFFD 5 0).lane 0 = BitVec.ofInt 64 (-3) ∧ (eng24 0xFFFFFFFFFFFFFFFD 5 0).Inv := by decide +kernel
/-- Register-preserving commands between a write and a read, and the line of inputs. -/
theorem witness_TransfersPersist :
    (∀ m ∈ [Input.request ⟨0x108, 9⟩, .request ⟨0x202, 0⟩, .request ⟨0, 0⟩], m.commandIs (keepsLane 0) = true) ∧
    (∀ m ∈ [Input.request ⟨0x8, 9⟩, .request ⟨0x3, 0⟩], m.commandIs writesNoCode = true) ∧
    ({ st (eng24 1 2 3) 7 with
        inputs := [.request ⟨0x8, 5⟩, .request ⟨0x108, 9⟩, .request ⟨0x9, 0⟩] } : State).inputs =
      .request (requestOf (.setv 0) 5) :: ([.request ⟨0x108, 9⟩] ++ .request (requestOf (.getv 0) 0) :: []) := by decide
/-- CFG's three invalid forms at their boundaries. -/
theorem witness_InvalidConfigurationExactly : (0 : Byte) = 0 ∧ 64 < (13 : Byte).toNat * (5 : Byte).toNat ∧
    EndsIn (.cfg 13 5) (st engNone 0) .invalidConfiguration := ⟨rfl, by decide, engNone, 0x50D00, by rfl⟩
/-- An engine of (16, 4) with V[3] = 16 and V[7] = 99 (R148's example). -/
def eng164 : Engine :=
  { (eng24 0 0 0).configure 16 4 with v := ((Vector.replicate 64 (1 : Data)).set 3 16).set 7 99 }

theorem witness_status_examples : eng164.Configured 16 4 ∧ eng164.lane 3 = 16 ∧ eng164.LanesInRange 3 ∧
    (eng24 1 0xFFFFFFFFFFFFFFF8 0).Configured 2 4 ∧ (eng24 1 0xFFFFFFFFFFFFFFF8 0).LanesInSignedRange 1 ∧
    (eng24 1 0xFFFFFFFFFFFFFFF8 0).lane 1 = BitVec.ofInt 64 (-8) := by decide +kernel
theorem witness_DimensionMismatchExactly : EndsIn (.pack 0) (st (eng24 1 2 3) 0) .dimensionMismatch ∧
    EndsIn (.spack 3) (st (eng24 1 2 3) 0) .dimensionMismatch :=
  ⟨⟨eng24 1 2 3, 0x200, by rfl⟩, ⟨eng24 1 2 3, 0x30200, by rfl⟩⟩
/-- The unsigned boundary, and an engine with B = 64. -/
theorem witness_ValueOutOfRangeExactly : FailsWith (.pack 2) (st (eng24 15 16 3) 0) .valueOutOfRange 16 ∧
    ((eng22 0 0 0).configure 1 64).b.toNat = 64 := ⟨by rfl, by decide⟩
theorem witness_SignedValueOutOfRangeExactly :
    FailsWith (.spack 2) (st (eng24 7 0xFFFFFFFFFFFFFFF8 3) 0) .signedValueOutOfRange 0xFFFFFFFFFFFFFFF8 := by rfl
theorem witness_NotConfiguredExactly : EndsIn .sunpack (st engNone 0) .notConfigured ∧
    (engineOf (exec (.cfg 1 64) (st engNone 0))).isSome = true := ⟨⟨engNone, 0, by rfl⟩, by decide +kernel⟩
theorem witness_TableIndexOutOfRangeExactly : EndsIn (.rdt .lshift 3) (st (eng24 0 0 0) 0) .tableIndexOutOfRange ∧
    eng641.Configured 64 1 := ⟨⟨eng24 0 0 0, 0x30300, by rfl⟩, by decide +kernel⟩
/-- PACK, commands that keep the code, UNPACK. -/
theorem witness_PackUnpackRoundTrip :
    (∀ m ∈ [Input.request ⟨0x8, 0⟩, .request ⟨0xD, 0⟩], m.commandIs keepsCode = true) ∧
    ({ st (eng24 7 5 0) 7 with
        inputs := [.request ⟨0x202, 0⟩, .request ⟨0x8, 0⟩, .request ⟨0x3, 0⟩, .rst none] } : State).inputs =
      .request (requestOf (.pack 2) 0) :: ([.request ⟨0x8, 0⟩] ++ .request (requestOf .unpack 0) :: [.rst none]) := by decide
/-- SPACK, a command that keeps the code, SUNPACK. -/
theorem witness_SpackSunpackRoundTrip : (Input.request ⟨0x8, 0⟩).commandIs keepsCode = true ∧
    ({ st (eng24 7 5 0) 7 with
        inputs := [.request ⟨0x204, 0⟩, .request ⟨0x8, 0⟩, .request ⟨0x5, 0⟩] } : State).inputs =
      .request (requestOf (.spack 2) 0) :: ([.request ⟨0x8, 0⟩] ++ .request (requestOf .sunpack 0) :: []) := by decide
/-- The sequences exist, as commands written out, and a state has them first in line. -/
theorem witness_HostPackThenUnpackReturnsValues : (LegalPair 2 4 ∧ [(15 : Data), 0].length = 2 ∧
    ∀ x ∈ [(15 : Data), 0], x.toNat < 2 ^ 4) ∧
    constructSequence 2 4 = some [⟨0x40201, 0⟩] ∧ packSequence [15, 0] = some [⟨0x8, 15⟩, ⟨0x108, 0⟩, ⟨0x202, 0⟩] ∧
    ({ st engNone 0 with inputs := asInputs ([⟨0x40201, 0⟩, ⟨0x8, 15⟩, ⟨0x108, 0⟩, ⟨0x202, 0⟩, ⟨0x3, 0⟩, ⟨0x9, 0⟩,
        ⟨0x109, 0⟩]) } : State).inputs =
      asInputs ([⟨0x40201, 0⟩] ++ [⟨0x8, 15⟩, ⟨0x108, 0⟩, ⟨0x202, 0⟩] ++ requestOf .unpack 0 :: readOut 2) ++ [] :=
  ⟨⟨by decide, by decide, by simp⟩, by decide +kernel⟩
theorem witness_HostSpackThenSunpackReturnsValues : (LegalPair 2 4 ∧ [(-7 : Int), 7].length = 2 ∧
    ∀ v ∈ [(-7 : Int), 7], -(2 ^ (4 - 1) : Int) < v ∧ v < (2 ^ (4 - 1) : Int)) ∧
    constructSequence 2 4 = some [⟨0x40201, 0⟩] ∧
    spackSequence ([-7, 7].map tc64) = some [⟨0x8, 0xFFFFFFFFFFFFFFF9⟩, ⟨0x108, 7⟩, ⟨0x204, 0⟩] ∧
    ({ st engNone 0 with inputs := asInputs ([⟨0x40201, 0⟩, ⟨0x8, 0xFFFFFFFFFFFFFFF9⟩, ⟨0x108, 7⟩, ⟨0x204, 0⟩, ⟨0x5, 0⟩,
        ⟨0x9, 0⟩, ⟨0x109, 0⟩]) } : State).inputs =
      asInputs ([⟨0x40201, 0⟩] ++ [⟨0x8, 0xFFFFFFFFFFFFFFF9⟩, ⟨0x108, 7⟩, ⟨0x204, 0⟩] ++
        requestOf .sunpack 0 :: readOut 2) ++ [] := by
  decide +kernel
theorem witness_HostUnpackReturnsLanesOfCode : (eng24 0 0 0).Configured 2 4 ∧
    ({ st (eng24 0 0 0) 7 with
        inputs := [.request ⟨0xA, 0x67⟩, .request ⟨0x3, 0⟩, .request ⟨0x9, 0⟩, .request ⟨0x109, 0⟩] } : State).inputs =
      asInputs (unpackSequence 0x67 2) ++ [] ∧
    ({ st (eng24 0 0 0) 7 with
        inputs := [.request ⟨0xA, 0x67⟩, .request ⟨0x5, 0⟩, .request ⟨0x9, 0⟩, .request ⟨0x109, 0⟩] } : State).inputs =
      asInputs (sunpackSequence 0x67 2) ++ [] := by decide +kernel
/-- Values of a packv at both ends of the data range, and lanes staged in another order. -/
theorem witness_PackvStagesThenPacks :
    (∀ v ∈ [(-(2 ^ 63) : Int), 2 ^ 64 - 1], -(2 ^ 63) ≤ v ∧ v < 2 ^ 64) ∧
    [((2 : Data), 1), (1, 0)].Perm [(1 : Data), 2].zipIdx ∧
    ({ st (eng24 0 0 0) 7 with
        inputs := [.request ⟨0x108, 2⟩, .request ⟨0x8, 1⟩, .request ⟨0x202, 0⟩] } : State).inputs =
      asInputs ([((2 : Data), 1), (1, 0)].map fun p => ⟨commandWord Opcode.setv.byte (BitVec.ofNat 8 p.2) 0, p.1⟩) ++
        .request (requestOf (.pack (countByte 2)) 0) :: [] :=
  ⟨by decide, List.Perm.swap _ _ _, by decide⟩

end Sys2Proof.Tests
end

section
/-! R29: the configuration invariants of a codec. The kept passes of R80 start below 2^6 on a legal pair, so the table
fits its seven registers; the invariants are then facts about `Tables(D, B)` read off the registers that hold it. -/

namespace Sys2Proof.Machine

/-! ### Legal pairs -/

theorem LegalPair.fst_le {d b : Nat} (h : LegalPair d b) : d ≤ 64 := by
  obtain ⟨-, hb, hdb⟩ := h
  exact (Nat.le_mul_of_pos_right d hb).trans hdb

theorem LegalPair.snd_le {d b : Nat} (h : LegalPair d b) : b ≤ 64 := by
  obtain ⟨hd, -, hdb⟩ := h
  exact (Nat.le_mul_of_pos_left b hd).trans hdb

/-- D*(B-1) is at most 63, since D*B is at most 64 and D at least 1 (R83). -/
theorem LegalPair.mul_pred_lt {d b : Nat} (h : LegalPair d b) : d * (b - 1) < 2 ^ 6 := by
  obtain ⟨hd, hb, hdb⟩ := h
  have hpos : 0 < d * b := Nat.mul_pos hd hb
  rw [Nat.mul_sub_one]
  omega

/-! ### The length of the table (R78 to R80) -/

/-- ORing a right shift of itself into a word does not lengthen it. -/
theorem or_ushiftRight_lt {s : Data} {k : Nat} (n : Nat) (h : s.toNat < 2 ^ k) : (s ||| (s >>> n)).toNat < 2 ^ k := by
  rw [BitVec.toNat_or, BitVec.toNat_ushiftRight]
  exact Nat.or_lt_two_pow h ((Nat.shiftRight_le _ _).trans_lt h)

/-- The flood fill of R79 sets no bit above the highest one. -/
theorem floodFill_lt {s : Data} {k : Nat} (h : s.toNat < 2 ^ k) : (floodFill s).toNat < 2 ^ k :=
  or_ushiftRight_lt 32 <| or_ushiftRight_lt 16 <| or_ushiftRight_lt 8 <| or_ushiftRight_lt 4 <|
    or_ushiftRight_lt 2 <| or_ushiftRight_lt 1 h

/-- The first shift tried on a legal pair is at most 32 (R79). -/
theorem startShift_lt {d b : Nat} (h : LegalPair d b) : (startShift d b).toNat < 2 ^ 6 := by
  have hstart : (BitVec.ofNat 64 (d * (b - 1))).toNat < 2 ^ 6 := by
    rw [BitVec.toNat_ofNat]
    exact (Nat.mod_le _ _).trans_lt h.mul_pred_lt
  have hflood := floodFill_lt hstart
  simp only [startShift]
  bv_omega

/-- NSTEPS is at most 7: entry 0 and at most six kept passes (R84(b)). -/
theorem tables_mask_length_le {d b : Nat} (h : LegalPair d b) : (tables d b).mask.length ≤ 7 := by
  have hpasses := passes_length_le d b 64 6 _ (startShift_lt h)
  simp only [tables, List.map_cons, List.length_cons, List.length_map]
  omega

/-! ### The entries of the table -/

theorem tables_mask_getElem?_zero (d b : Nat) : (tables d b).mask[0]? = some (fullMask b) := by
  simp [tables]

theorem tables_lshift_getElem?_zero (d b : Nat) : (tables d b).lshift[0]? = some 0 := by
  simp [tables]

theorem toNat_fullMask {b : Nat} (h : b ≤ 64) : (fullMask b).toNat = 2 ^ b - 1 := by
  have hle : 2 ^ b ≤ 2 ^ 64 := Nat.pow_le_pow_right (by decide) h
  rw [fullMask, BitVec.toNat_ofNat, Nat.mod_eq_of_lt (by omega)]

/-- A right shift before the last is the left shift of the next pass (R81). -/
theorem tables_rshift_getElem? {d b j : Nat} (h : j + 1 < (tables d b).mask.length) :
    (tables d b).rshift[j]? = (tables d b).lshift[j + 1]? := by
  rw [← tables_lshift_length] at h
  change (gatherShifts (tables d b).lshift)[j]? = _
  rw [gatherShifts, List.getElem?_append_left (by rw [List.length_drop]; omega), List.getElem?_drop, Nat.add_comm]

/-- The last right shift is 0 (R81). -/
theorem tables_rshift_getElem?_last {d b j : Nat} (h : j + 1 = (tables d b).mask.length) :
    (tables d b).rshift[j]? = some 0 := by
  rw [← tables_lshift_length] at h
  change (gatherShifts (tables d b).lshift)[j]? = _
  rw [gatherShifts, List.getElem?_append_right (by rw [List.length_drop]; omega), List.length_drop,
    show j - ((tables d b).lshift.length - 1) = 0 by omega, List.getElem?_cons_zero]

/-! ### A configured engine -/

/-- An array whose first n entries are a list holds entry j of that list in register j. -/
theorem getElem?_of_take_eq {old : Vector Data 7} {xs : List Data} {n j : Nat} (h : old.toList.take n = xs)
    (hn : j < n) (hj : j < 7) : xs[j]? = some old[j] := by
  rw [← h, List.getElem?_take_of_lt hn, Vector.getElem?_toList, Vector.getElem?_eq_getElem hj]

/-- R29 (a) to (e) hold of an engine that holds a codec. -/
theorem Engine.Configured.tableInvariants {e : Engine} {d b : Nat} (h : e.Configured d b) : e.TableInvariants := by
  obtain ⟨hlegal, -, rfl, rfl, hn, hm, hl, hr⟩ := h
  have hpos : 0 < e.nsteps.toNat := hn ▸ tables_mask_length_pos _ _
  have hmask := fun {j} => getElem?_of_take_eq (j := j) hm
  have hlshift := fun {j} => getElem?_of_take_eq (j := j) hl
  have hrshift := fun {j} => getElem?_of_take_eq (j := j) hr
  refine ⟨hlegal, ⟨?mask0, ?lshift0⟩, ⟨hpos, Nat.le_of_lt_succ e.nsteps.isLt⟩,
    ⟨fun j hj hlt => ?next, fun j hj hlast => ?last⟩,
    fun j hj hlt => ⟨hmask hlt hj, hlshift hlt hj, hrshift hlt hj⟩⟩
  case mask0 =>
    have h0 := (hmask hpos (by decide)).symm.trans (tables_mask_getElem?_zero _ _)
    rw [Option.some.inj h0, toNat_fullMask hlegal.snd_le]
  case lshift0 =>
    exact Option.some.inj ((hlshift hpos (by decide)).symm.trans (tables_lshift_getElem?_zero _ _))
  case next =>
    have hshift := tables_rshift_getElem? (hn ▸ hlt)
    rw [hrshift (by omega) (by omega), hlshift hlt (by omega)] at hshift
    exact Option.some.inj hshift
  case last =>
    have hzero := tables_rshift_getElem?_last (hn ▸ hlast)
    rw [hrshift (by omega) hj] at hzero
    exact Option.some.inj hzero

/-- The invariant of a run is, while VALID = 1, that the engine holds the codec of its D and B. -/
theorem Engine.Inv.configured {e : Engine} (h : e.Inv) (hv : e.valid = true) : e.Configured e.d.toNat e.b.toNat := by
  obtain ⟨hnot, -⟩ | hcfg := h
  · simp [hv] at hnot
  · exact hcfg

/-- The writes of a CFG with a legal pair install its codec, whatever the registers held before (R75). -/
theorem Engine.configure_configured (e : Engine) {d b : Byte} (h : LegalPair d.toNat b.toNat) :
    (e.configure d b).Configured d.toNat b.toNat := by
  have hlen := tables_mask_length_le h
  have hn : (e.configure d b).nsteps.toNat = (tables d.toNat b.toNat).mask.length := by
    rw [Engine.configure_nsteps, BitVec.toNat_ofNat, Nat.mod_eq_of_lt (by omega)]
  have hd := h.fst_le
  have hb := h.snd_le
  refine ⟨h, rfl, ?dims, ?bits, hn, ?mask, ?lshift, ?rshift⟩
  case dims => rw [Engine.configure_d, BitVec.toNat_setWidth, Nat.mod_eq_of_lt (by omega)]
  case bits => rw [Engine.configure_b, BitVec.toNat_setWidth, Nat.mod_eq_of_lt (by omega)]
  case mask => rw [hn, Engine.configure_mask, take_overwrite _ _ hlen]
  case lshift =>
    rw [← tables_lshift_length] at hn hlen
    rw [hn, Engine.configure_lshift, take_overwrite _ _ hlen]
  case rshift =>
    rw [← tables_rshift_length] at hn hlen
    rw [hn, Engine.configure_rshift, take_overwrite _ _ hlen]

/-- CFG with a legal pair succeeds with RDATA 0 and makes the writes of R75. -/
theorem exec_cfg_of_legal {d b : Byte} (s : State) (h : LegalPair d.toNat b.toNat) :
    exec (.cfg d b) s = .next (s.answer (s.engine.configure d b) .ok 0) := by
  change execCfg d b s = _
  rw [execCfg, invalidPair_false.mpr h, if_neg Bool.false_ne_true, respond_next]

/-- Settles O19: a configured engine meets R29 (a) to (e); the invariant with VALID = 1 says the engine is configured,
and a CFG with a legal pair leaves it configured. -/
theorem configurationInvariants : Obligations.ConfigurationInvariants := by
  refine ⟨fun e hinv hvalid => (hinv.configured hvalid).tableInvariants, fun d b s t hlegal hexec => ?_⟩
  rw [exec_cfg_of_legal s hlegal] at hexec
  obtain rfl := Host.Outcome.next.inj hexec
  exact ⟨rfl, (s.engine.configure_configured hlegal).tableInvariants⟩

end Sys2Proof.Machine
end

section
/-! R62: which words are illegal. One lemma per operand check says what it refuses; the clauses (c) to (g) then follow
opcode by opcode, and (a) and (b) are the two branches of `decode` in front of them. -/

namespace Sys2Proof

/-! ### What each operand check refuses -/

theorem formatZ_illegal (i : Instr) (a b : Byte) : (∃ why, formatZ i a b = .illegal why) ↔ a ≠ 0 ∨ b ≠ 0 := by
  unfold formatZ
  split
  case isTrue h => exact iff_of_true ⟨_, rfl⟩ h
  case isFalse h => exact iff_of_false nofun h

theorem formatA_illegal (k : Byte → Decoded) (a b : Byte) :
    (∃ why, formatA k a b = .illegal why) ↔ b ≠ 0 ∨ ∃ why, k a = .illegal why := by
  unfold formatA
  split
  case isTrue h => exact iff_of_true ⟨_, rfl⟩ (.inl h)
  case isFalse h => exact (or_iff_right h).symm

theorem withCount_illegal (k : Byte → Instr) (a : Byte) :
    (∃ why, withCount k a = .illegal why) ↔ 64 < a.toNat := by
  unfold withCount
  split
  case isTrue h => exact iff_of_true ⟨_, rfl⟩ h
  case isFalse h => exact iff_of_false nofun h

theorem withLane_illegal (k : Fin 64 → Instr) (a : Byte) : (∃ why, withLane k a = .illegal why) ↔ 63 < a.toNat := by
  unfold withLane
  split
  case isTrue h => exact iff_of_false nofun (by omega)
  case isFalse h => exact iff_of_true ⟨_, rfl⟩ (by omega)

/-- The three selectors are the bytes up to 2 (R89). -/
theorem tableArrayOf_eq_none {a : Byte} : tableArrayOf a = none ↔ 2 < a.toNat := by
  have hnot : tableArrayOf a = none ↔ a ≠ 0 ∧ a ≠ 1 ∧ a ≠ 2 := by
    simp [tableArrayOf, TableArray.selector, eq_comm (b := a)]
  rw [hnot]
  bv_omega

theorem withSelector_illegal (k : TableArray → Instr) (a : Byte) :
    (∃ why, withSelector k a = .illegal why) ↔ 2 < a.toNat := by
  rw [← tableArrayOf_eq_none]
  unfold withSelector
  split <;> simp [*]

/-! ### The clauses of R62 -/

/-- The assigned values of op (R58, R62(b)). -/
def opcodeBytes : List Byte := [0x01, 0x02, 0x03, 0x04, 0x05, 0x08, 0x09, 0x0A, 0x0B, 0x0C, 0x0D]

/-- R62 (c) to (g): the clauses on the operand bytes. -/
def IllegalOperands (op a b : Byte) : Prop :=
  (op ∈ [0x03#8, 0x05, 0x0A, 0x0B, 0x0C] ∧ (a ≠ 0 ∨ b ≠ 0)) ∨
  (op ∈ [0x02#8, 0x04, 0x08, 0x09] ∧ b ≠ 0) ∨
  (op ∈ [0x08#8, 0x09] ∧ 63 < a.toNat) ∨
  (op ∈ [0x02#8, 0x04] ∧ 64 < a.toNat) ∨
  (op = 0x0D ∧ 2 < a.toNat)

theorem opcodeOf_eq_none {op : Byte} : opcodeOf op = none ↔ op ∉ opcodeBytes := by
  have hbytes : opcodeBytes = Opcode.all.map Opcode.byte := rfl
  simp [opcodeOf, hbytes]

theorem decodeOperands_illegal (o : Opcode) (a b : Byte) :
    (∃ why, decodeOperands o a b = .illegal why) ↔ IllegalOperands o.byte a b := by
  cases o <;>
    simp [decodeOperands, IllegalOperands, Opcode.byte, formatZ_illegal, formatA_illegal, withCount_illegal,
      withLane_illegal, withSelector_illegal]

/-- A word is illegal by its reserved byte, by its opcode, or by its operands. -/
theorem decode_illegal_iff (w : CmdWord) :
    (∃ why, decode w = .illegal why) ↔
      rsvField w ≠ 0 ∨ opField w ∉ opcodeBytes ∨ IllegalOperands (opField w) (aField w) (bField w) := by
  unfold decode
  split
  case isTrue hrsv => exact iff_of_true ⟨_, rfl⟩ (.inl hrsv)
  case isFalse hrsv =>
    rw [or_iff_right hrsv]
    split
    case h_1 o ho =>
      have hassigned : ¬ opField w ∉ opcodeBytes := by simp [← opcodeOf_eq_none, ho]
      rw [or_iff_right hassigned, decodeOperands_illegal, opcodeOf_eq_some ho]
    case h_2 hnone => exact iff_of_true ⟨_, rfl⟩ (.inl (opcodeOf_eq_none.mp hnone))

end Sys2Proof
end

section
/-! R66: a step with a request first in line executes the word of the request; what that is, for a legal and for an
illegal word. -/

namespace Sys2Proof.Machine

theorem execWord_of_legal {w : CmdWord} {i : Instr} (s : State) (h : decode w = .legal i) : execWord w s = exec i s := by
  rw [execWord, h]

/-- An illegal word is answered IllegalCommand with the word itself, and the engine is as before (R62, R151). -/
theorem execWord_of_illegal {w : CmdWord} {why : Illegal} (s : State) (h : decode w = .illegal why) :
    execWord w s = .next (s.answer s.engine .illegalCommand (w.setWidth 64)) := by
  rw [execWord, h]
  rfl

theorem step_of_request {s : State} {r : Request} {rest : List Input} (h : s.inputs = .request r :: rest) :
    step s = execWord r.cmd (s.accept r.wdata rest) := by
  rw [step, h]

/-- Settles O3: the clauses are those of `decode_illegal_iff`, the fields written out. -/
theorem illegalWordsExactly : Obligations.IllegalWordsExactly :=
  fun w => ⟨decode_illegal_iff w, fun s ⟨_, hwhy⟩ => execWord_of_illegal s hwhy⟩

/-- Settles O2: every line and every word of R70 is computed. -/
theorem workedEncodings : Obligations.WorkedEncodings := by
  unfold Obligations.WorkedEncodings
  decide

/-- Settles O8: the step accepts the request, and `execWord` runs what its word decodes to. -/
theorem stepRunsDecodedCommand : Obligations.StepRunsDecodedCommand := by
  intro s r rest hinputs
  rw [step_of_request hinputs]
  exact ⟨fun i hlegal => execWord_of_legal _ hlegal, fun why hwhy => execWord_of_illegal _ hwhy⟩

end Sys2Proof.Machine
end

section
/-! R76, R82: on which pairs CFG succeeds, how it ends on the others, and how many legal pairs there are. -/

namespace Sys2Proof.Machine

/-! ### The two ends of a CFG -/

/-- A command that answers ends with the status it answers and with no other. -/
theorem endsIn_iff {i : Instr} {s : State} {e : Engine} {st su : Status} {x : Data}
    (h : exec i s = .next (s.answer e st x)) : EndsIn i s su ↔ su = st := by
  constructor
  · rintro ⟨f, y, hend⟩
    have hanswer := Host.Outcome.next.inj (hend.symm.trans h)
    exact (State.answer_inj.mp hanswer).2.1
  · rintro rfl
    exact ⟨e, x, h⟩

/-- The tests of R76 on the operand bytes refuse the pairs that are not legal. -/
theorem not_legalPair_iff {d b : Byte} :
    ¬ LegalPair d.toNat b.toNat ↔ d = 0 ∨ b = 0 ∨ 64 < d.toNat * b.toNat := by
  rw [← invalidPair_false, Bool.not_eq_false]
  simp [invalidPair, or_assoc]

/-- CFG with any other pair ends with InvalidConfiguration and writes nothing (R76, R82). -/
theorem exec_cfg_of_not_legal {d b : Byte} (s : State) (h : ¬ LegalPair d.toNat b.toNat) :
    exec (.cfg d b) s =
      .next (s.answer s.engine .invalidConfiguration (infoWord (d.setWidth 64) (b.setWidth 64))) := by
  have hinvalid : invalidPair d b = true := by rwa [← invalidPair_false, Bool.not_eq_false] at h
  change execCfg d b s = _
  rw [execCfg, if_pos hinvalid, raise_next]

/-! ### The number of legal pairs -/

theorem length_filter_range_between (q n : Nat) :
    ((List.range n).filter fun b => decide (1 ≤ b ∧ b ≤ q)).length = min (n - 1) q := by
  induction n with
  | zero => simp
  | succ n ih =>
    rw [List.range_succ, List.filter_append, List.length_append, ih]
    by_cases hn : 1 ≤ n ∧ n ≤ q
    · simp [hn]; omega
    · simp [hn]; omega

/-- The legal partners of d are 1 .. floor(64/d); for d = 0 there are none, and the quotient is 0 too. -/
theorem legalPair_iff_le_div {d b : Nat} : LegalPair d b ↔ 1 ≤ b ∧ b ≤ 64 / d := by
  rcases Nat.eq_zero_or_pos d with rfl | hd
  · simp [LegalPair]; omega
  · rw [Nat.le_div_iff_mul_le hd, Nat.mul_comm b d]
    exact and_iff_right hd

theorem length_legal_partners (d : Nat) :
    ((List.range 256).filter fun b => decide (LegalPair d b)).length = 64 / d := by
  have hq : 64 / d ≤ 64 := Nat.div_le_self 64 d
  simp only [legalPair_iff_le_div]
  rw [length_filter_range_between]
  omega

/-- Settles O21: CFG with a legal pair ends in OK and with any other in InvalidConfiguration; d has floor(64/d) legal
partners. -/
theorem cfgSucceedsOnLegalPairs : Obligations.CfgSucceedsOnLegalPairs := by
  refine ⟨fun d b s => ?_, ?_⟩
  · rw [← not_legalPair_iff]
    by_cases hlegal : LegalPair d.toNat b.toNat
    · have hend := exec_cfg_of_legal s hlegal
      rw [endsIn_iff hend, endsIn_iff hend]
      exact ⟨iff_of_true rfl hlegal, iff_of_false nofun (not_not_intro hlegal)⟩
    · have hend := exec_cfg_of_not_legal s hlegal
      rw [endsIn_iff hend, endsIn_iff hend]
      exact ⟨iff_of_false nofun hlegal, iff_of_true rfl hlegal⟩
  · simp only [length_legal_partners]
    decide +kernel

end Sys2Proof.Machine
end

section
/-! R88: the configuration word that RDCFG answers, as a number and field by field. -/

namespace Sys2Proof.Machine

/-- A word below 2^k and another moved up by k places do not overlap: their OR is their sum. -/
theorem toNat_or_shiftLeft {x y : Data} {m n k : Nat} (hx : x.toNat = m) (hy : y.toNat = n) (hm : m < 2 ^ k)
    (hn : 2 ^ k * n < 2 ^ 64) : (x ||| y <<< k).toNat = 2 ^ k * n + m := by
  rw [BitVec.toNat_or, BitVec.toNat_shiftLeft, hx, hy, Nat.shiftLeft_eq, Nat.mul_comm, Nat.mod_eq_of_lt hn, Nat.or_comm,
    Nat.two_pow_add_eq_or_of_lt hm]

/-- The configuration word as a number: each field is below the next one (R88). -/
theorem Engine.toNat_configWord (e : Engine) :
    e.configWord.toNat =
      2 ^ 24 * e.nsteps.toNat + (2 ^ 16 * e.b.toNat + (2 ^ 8 * e.d.toNat + e.valid.toNat)) := by
  have hd : (e.d.setWidth 64).toNat = e.d.toNat := BitVec.toNat_setWidth_of_le (by decide)
  have hb : (e.b.setWidth 64).toNat = e.b.toNat := BitVec.toNat_setWidth_of_le (by decide)
  have hn : (e.nsteps.setWidth 64).toNat = e.nsteps.toNat := BitVec.toNat_setWidth_of_le (by decide)
  have hv : ((BitVec.ofBool e.valid).setWidth 64).toNat = e.valid.toNat := by
    rw [BitVec.toNat_setWidth_of_le (by decide), BitVec.toNat_ofBool]
  have hv1 := e.valid.toNat_lt
  have hvd := toNat_or_shiftLeft (k := 8) hv hd (by omega) (by omega)
  have hvdb := toNat_or_shiftLeft (k := 16) hvd hb (by omega) (by omega)
  exact toNat_or_shiftLeft hvdb hn (by omega) (by omega)

/-- RDCFG answers the configuration word in every state and writes nothing. -/
theorem exec_rdcfg (s : State) : exec .rdcfg s = .next (s.answer s.engine .ok s.engine.configWord) := rfl

/-- An engine without a codec reads as 0 (R88, R150). -/
theorem Engine.configWord_of_not_valid {e : Engine} (hinv : e.Inv) (hv : e.valid = false) : e.configWord = 0 := by
  obtain ⟨-, hd, hb, hn⟩ | ⟨-, hvalid, -⟩ := hinv
  · rw [configWord, hv, hd, hb, hn]
    decide
  · simp [hv] at hvalid

/-- R88's example: whatever was there before, cfg 2, 32 leaves VALID 1, D 2, B 32 and NSTEPS 6. -/
theorem Engine.configWord_configure_2_32 (e : Engine) : (e.configure 2 32).configWord = 0x0000000006200201 := by
  have hn : (tables 2 32).mask.length = 6 := by decide +kernel
  simp [configWord, hn]

/-- Settles O25: every field is read off the configuration word's value. -/
theorem rdcfgReturnsConfiguration : Obligations.RdcfgReturnsConfiguration := by
  refine ⟨by decide, fun s => ⟨s.engine.configWord, exec_rdcfg s, ?_⟩⟩
  have hword := s.engine.toNat_configWord
  have hv := s.engine.valid.toNat_lt
  have hfield : ∀ i n, (s.engine.configWord.extractLsb' i n).toNat = s.engine.configWord.toNat / 2 ^ i % 2 ^ n :=
    fun i n => by rw [BitVec.extractLsb'_toNat, Nat.shiftRight_eq_div_pow]
  refine ⟨?valid, BitVec.eq_of_toNat_eq ?low, ?d, ?b, ?nsteps, BitVec.eq_of_toNat_eq ?high, Engine.configWord_of_not_valid,
    fun t hcfg => ?cfg⟩
  case valid =>
    rw [BitVec.getLsbD, Nat.testBit_zero, hword]
    cases s.engine.valid <;> simp <;> omega
  case low => rw [hfield, hword]; change _ = 0; omega
  case d => rw [hfield, hword]; omega
  case b => rw [hfield, hword]; omega
  case nsteps => rw [hfield, hword]; omega
  case high => rw [hfield, hword]; change _ = 0; omega
  case cfg =>
    rw [exec_cfg_of_legal s (by decide)] at hcfg
    obtain rfl := Host.Outcome.next.inj hcfg
    rw [exec_rdcfg, State.answer_engine, Engine.configWord_configure_2_32]

end Sys2Proof.Machine
end

section
/-! R85: the closed form of the table. A shift 2^i is kept when bit i is set in some distance, the start shift is the
highest power of two up to D*(B-1), and the passes from there down are the kept ones among 32, 16, 8, 4, 2, 1. -/

namespace Sys2Proof.Machine

/-! ### Words with one bit per source bit -/

/-- The word with bit `pos k` set for each k in 0 .. B-1. -/
def bitsAt (b : Nat) (pos : Nat → Nat) : Data := (List.range b).foldl (fun m k => m ||| (1#64 <<< pos k)) 0

/-- Where source bit k stands after the pass with shift s (R85). -/
def positionAfter (d s k : Nat) : Nat := k + s * (k * (d - 1) / s)

/-- Some distance has the bit of the shift s (R85). -/
def shiftMoves (d b s : Nat) : Bool := (List.range b).any fun k => k * (d - 1) &&& s != 0

theorem getLsbD_foldl_or_one_shiftLeft (pos : Nat → Nat) {p : Nat} (hp : p < 64) (ks : List Nat) (m : Data) :
    (ks.foldl (fun m k => m ||| (1#64 <<< pos k)) m).getLsbD p = (m.getLsbD p || ks.any fun k => pos k == p) := by
  induction ks generalizing m with
  | nil => simp
  | cons k ks ih =>
    have hbit : (1#64 <<< pos k).getLsbD p = (pos k == p) := by
      rw [Bool.eq_iff_iff]
      simp [hp]
      omega
    rw [List.foldl_cons, ih, BitVec.getLsbD_or, hbit, List.any_cons, Bool.or_assoc]

theorem getLsbD_bitsAt (b : Nat) (pos : Nat → Nat) {p : Nat} (hp : p < 64) :
    (bitsAt b pos).getLsbD p = (List.range b).any fun k => pos k == p := by
  rw [bitsAt, getLsbD_foldl_or_one_shiftLeft pos hp]
  simp

/-- Only the positions of the B source bits count. -/
theorem bitsAt_congr {b : Nat} {pos pos' : Nat → Nat} (h : ∀ k, k < b → pos k = pos' k) : bitsAt b pos = bitsAt b pos' :=
  List.foldl_ext _ _ _ fun m k hk => by rw [h k (List.mem_range.mp hk)]

/-- Entry 0 keeps the source bits where they are (R78). -/
theorem fullMask_eq_bitsAt (b : Nat) : fullMask b = bitsAt b id := by
  apply BitVec.eq_of_getLsbD_eq
  intro p hp
  rw [getLsbD_bitsAt b id hp, fullMask, BitVec.getLsbD_ofNat, Nat.testBit_two_pow_sub_one, Bool.eq_iff_iff]
  simp [hp]

/-- The shift 2^i moves a bit exactly if bit i of some distance is set. -/
theorem shiftMoves_two_pow_iff {d b i : Nat} :
    shiftMoves d b (2 ^ i) = true ↔ ∃ k, k < b ∧ (k * (d - 1)).testBit i = true := by
  simp [shiftMoves, Nat.and_two_pow]

/-! ### Distances on a legal pair (R83) -/

theorem LegalPair.mul_lt {d b k : Nat} (h : LegalPair d b) (hk : k < b) : k * d < 64 := by
  have hle : k * d ≤ (b - 1) * d := Nat.mul_le_mul_right d (by omega)
  have hlt := h.mul_pred_lt
  rw [Nat.mul_comm] at hlt
  omega

/-- Bit k starts at position k and ends at position k*D. -/
theorem LegalPair.add_distance {d b : Nat} (h : LegalPair d b) (k : Nat) : k + k * (d - 1) = k * d := by
  obtain ⟨hd, -, -⟩ := h
  obtain ⟨c, rfl⟩ := Nat.exists_eq_add_of_le' hd
  rw [Nat.add_sub_cancel, Nat.mul_succ, Nat.add_comm]

theorem LegalPair.distance_le {d b k : Nat} (h : LegalPair d b) (hk : k < b) : k * (d - 1) ≤ d * (b - 1) := by
  rw [Nat.mul_comm d]
  exact Nat.mul_le_mul (by omega) (by omega)

theorem LegalPair.distance_lt {d b k : Nat} (h : LegalPair d b) (hk : k < b) : k * (d - 1) < 64 :=
  (h.distance_le hk).trans_lt h.mul_pred_lt

theorem toNat_distance {d b k : Nat} (h : LegalPair d b) (hk : k < b) : (distance d k).toNat = k * (d - 1) := by
  have hgap : d * k - k = k * (d - 1) := by rw [Nat.mul_comm, ← Nat.mul_sub_one]
  rw [distance, hgap, BitVec.toNat_ofNat, Nat.mod_eq_of_lt ((h.distance_lt hk).trans (by decide))]

/-! ### One pass (R80) -/

theorem toNat_ofNat_two_pow {i : Nat} (hi : i < 64) : (BitVec.ofNat 64 (2 ^ i)).toNat = 2 ^ i := by
  rw [BitVec.toNat_ofNat, Nat.mod_eq_of_lt (Nat.pow_lt_pow_right (by decide) hi)]

/-- The pass with shift 2^i moves a bit exactly if a distance has bit i. -/
theorem passMoves_two_pow {d b i : Nat} (h : LegalPair d b) (hi : i < 64) :
    passMoves d b (BitVec.ofNat 64 (2 ^ i)) = shiftMoves d b (2 ^ i) := by
  have hterm : ∀ k, k < b →
      (BitVec.ofNat 64 (2 ^ i) &&& distance d k ≠ 0 ↔ k * (d - 1) &&& 2 ^ i ≠ 0) := fun k hk => by
    rw [ne_eq, BitVec.toNat_eq, BitVec.toNat_and, toNat_ofNat_two_pow hi, toNat_distance h hk, Nat.and_comm]
    rfl
  rw [Bool.eq_iff_iff]
  simp only [passMoves, shiftMoves, List.any_eq_true, List.mem_range, bne_iff_ne]
  exact exists_congr fun k => and_congr_right (hterm k)

/-- Clearing the bits of x below bit i leaves the multiple of 2^i below it. -/
theorem toNat_not_sub_one_and (i : Nat) (x : Data) :
    (~~~(BitVec.ofNat 64 (2 ^ i) - 1) &&& x).toNat = 2 ^ i * (x.toNat / 2 ^ i) := by
  have hlow : BitVec.ofNat 64 (2 ^ i) - 1 = BitVec.ofNat 64 (2 ^ i - 1) :=
    BitVec.ofNat_sub_ofNat_of_le _ 1 (by decide) Nat.one_le_two_pow
  apply Nat.eq_of_testBit_eq
  intro p
  rw [hlow, BitVec.testBit_toNat, BitVec.getLsbD_and, BitVec.getLsbD_not, BitVec.getLsbD_ofNat,
    Nat.testBit_two_pow_sub_one, Nat.testBit_two_pow_mul, Nat.testBit_div_two_pow, BitVec.testBit_toNat]
  by_cases hp : p < i
  · simp [hp]
  · have hpi : p - i + i = p := by omega
    cases hx : x.getLsbD p with
    | false => simp [hpi, hx]
    | true => simp [hpi, hx, hp, BitVec.lt_of_getLsbD hx]; omega

/-- The mask of the pass with shift 2^i has the source bits where the closed form puts them. -/
theorem passMask_two_pow {d b : Nat} (h : LegalPair d b) (i : Nat) :
    passMask d b (BitVec.ofNat 64 (2 ^ i)) = bitsAt b (positionAfter d (2 ^ i)) :=
  bitsAt_congr fun k hk => by rw [toNat_not_sub_one_and, toNat_distance h hk, positionAfter]

/-! ### The passes from a power of two down -/

/-- 2^(t-1), .., 4, 2, 1: the shifts of t passes, each half of the one before. -/
def shiftsBelow : Nat → List Nat
  | 0 => []
  | t + 1 => 2 ^ t :: shiftsBelow t

theorem mem_shiftsBelow {t s : Nat} : s ∈ shiftsBelow t ↔ ∃ i, i < t ∧ s = 2 ^ i := by
  induction t with
  | zero => simp [shiftsBelow]
  | succ t ih =>
    rw [shiftsBelow, List.mem_cons, ih]
    simp only [Nat.lt_succ_iff_lt_or_eq, or_and_right, exists_or, exists_eq_left, or_comm]

/-- The table entry of a kept pass with shift s (R85). -/
def passEntry (d b s : Nat) : Data × Data := (bitsAt b (positionAfter d s), BitVec.ofNat 64 s)

/-- From the shift 2^(t-1), or 0 when t = 0, the loop of R80 keeps the shifts below 2^t that move a bit. -/
theorem passes_eq {d b : Nat} (h : LegalPair d b) {t fuel : Nat} (hfuel : t ≤ fuel) (ht : t ≤ 64) :
    passes d b fuel (BitVec.ofNat 64 (2 ^ t / 2)) =
      ((shiftsBelow t).filter (shiftMoves d b)).map (passEntry d b) := by
  induction t generalizing fuel with
  | zero => cases fuel <;> simp [passes, shiftsBelow]
  | succ t ih =>
    obtain ⟨fuel, rfl⟩ := Nat.exists_eq_add_of_le' (Nat.le_of_add_left_le hfuel)
    have hne : BitVec.ofNat 64 (2 ^ t) ≠ 0 := fun h0 => by
      have := congrArg BitVec.toNat h0
      rw [toNat_ofNat_two_pow ht] at this
      exact absurd this (by simp)
    have hhalf : BitVec.ofNat 64 (2 ^ t) >>> 1 = BitVec.ofNat 64 (2 ^ t / 2) := by
      apply BitVec.eq_of_toNat_eq
      rw [BitVec.toNat_ushiftRight, toNat_ofNat_two_pow ht, BitVec.toNat_ofNat, Nat.shiftRight_eq_div_pow]
      have hlt : 2 ^ t < 2 ^ 64 := Nat.pow_lt_pow_right (by decide) ht
      rw [Nat.mod_eq_of_lt ((Nat.div_le_self _ _).trans_lt hlt), pow_one]
    rw [show 2 ^ (t + 1) / 2 = 2 ^ t by omega, shiftsBelow, passes, if_neg hne, hhalf, ih (by omega) (by omega),
      passMoves_two_pow h ht, passMask_two_pow h]
    split
    case isTrue hmoves => rw [List.filter_cons_of_pos hmoves]; rfl
    case isFalse hmoves => rw [List.filter_cons_of_neg hmoves]

/-! ### The start shift (R79) -/

/-- The highest power of two up to n; 0 when n = 0. -/
def topShift (n : Nat) : Nat := if n = 0 then 0 else 2 ^ n.log2

/-- How many passes are made: one per power of two up to n. -/
def passCount (n : Nat) : Nat := if n = 0 then 0 else n.log2 + 1

/-- The flood fill less its half is the highest power of two, checked on the 64 values that D*(B-1) can have (R79). -/
theorem floodFill_sub_half : ∀ n : Fin 64, floodFill (BitVec.ofNat 64 n) - (floodFill (BitVec.ofNat 64 n) >>> 1) =
    BitVec.ofNat 64 (2 ^ passCount n / 2) := by decide

theorem passCount_le : ∀ n : Fin 64, passCount n ≤ 6 := by decide

/-- The passes made have the shifts up to the start shift, checked on the 64 values of D*(B-1). -/
theorem shiftsBelow_passCount : ∀ n : Fin 64,
    shiftsBelow (passCount n) = [32, 16, 8, 4, 2, 1].filter fun s => decide (s ≤ topShift n) := by decide

/-- A shift that moves a bit is at most the start shift. -/
theorem le_topShift_of_shiftMoves {d b i : Nat} (h : LegalPair d b) (hmoves : shiftMoves d b (2 ^ i) = true) :
    2 ^ i ≤ topShift (d * (b - 1)) := by
  obtain ⟨k, hk, hbit⟩ := shiftMoves_two_pow_iff.mp hmoves
  have hle : 2 ^ i ≤ d * (b - 1) := (Nat.ge_two_pow_of_testBit hbit).trans (h.distance_le hk)
  have hne : d * (b - 1) ≠ 0 := ((Nat.two_pow_pos i).trans_le hle).ne'
  rw [topShift, if_neg hne]
  exact Nat.pow_le_pow_right (by decide) ((Nat.le_log2 hne).mpr hle)

/-! ### The table (R77) -/

/-- The shifts of the kept passes: the powers of two up to 32 that move a bit. -/
def keptShifts (d b : Nat) : List Nat := [32, 16, 8, 4, 2, 1].filter (shiftMoves d b)

/-- The bound s0 of R85 drops no shift that moves a bit. -/
theorem filter_le_topShift_and_shiftMoves {d b : Nat} (h : LegalPair d b) :
    ([32, 16, 8, 4, 2, 1].filter fun s => decide (s ≤ topShift (d * (b - 1))) && shiftMoves d b s) = keptShifts d b := by
  apply List.filter_congr
  intro s hs
  obtain ⟨i, -, rfl⟩ := mem_shiftsBelow (t := 6).mp hs
  cases hmoves : shiftMoves d b (2 ^ i) with
  | false => simp
  | true => simp [le_topShift_of_shiftMoves h hmoves]

/-- The loop of R80 from the start shift gives the entries of the kept shifts. -/
theorem passes_startShift {d b : Nat} (h : LegalPair d b) :
    passes d b 64 (startShift d b) = (keptShifts d b).map (passEntry d b) := by
  have hstart := floodFill_sub_half ⟨_, h.mul_pred_lt⟩
  have hcount := passCount_le ⟨_, h.mul_pred_lt⟩
  have hbelow := shiftsBelow_passCount ⟨_, h.mul_pred_lt⟩
  simp only at hstart hcount hbelow
  rw [startShift, hstart, passes_eq h (by omega) (by omega), hbelow, List.filter_filter,
    ← filter_le_topShift_and_shiftMoves h]
  simp only [Bool.and_comm]

theorem tables_lshift_eq {d b : Nat} (h : LegalPair d b) :
    (tables d b).lshift = 0 :: (keptShifts d b).map (BitVec.ofNat 64) := by
  simp [tables, passes_startShift h, passEntry, Function.comp_def]

theorem tables_mask_eq {d b : Nat} (h : LegalPair d b) :
    (tables d b).mask = fullMask b :: (keptShifts d b).map fun s => bitsAt b (positionAfter d s) := by
  simp [tables, passes_startShift h, passEntry, Function.comp_def]

/-- Settles O23: the table is that of the kept shifts. -/
theorem tablesClosedForm : Obligations.TablesClosedForm := by
  intro d b h s0 kept
  have hs0 : s0 = topShift (d * (b - 1)) := by
    obtain ⟨hd, hb, -⟩ := h
    have hzero : b = 1 ↔ d * (b - 1) = 0 := by rw [Nat.mul_eq_zero]; omega
    simp only [s0, topShift, hzero]
  have hkept : kept = keptShifts d b := by
    rw [← filter_le_topShift_and_shiftMoves h, ← hs0]
    rfl
  rw [hkept]
  exact ⟨tables_lshift_eq h, tables_mask_eq h⟩

end Sys2Proof.Machine
end

section
/-! R84: what holds of every table. The last shift of a table divides every distance, since no smaller shift is kept; so
the last mask is the fully spread one. -/

namespace Sys2Proof.Machine

/-! ### The last kept shift -/

/-- Bit t of each distance is 0 when the shift 2^t moves none. -/
theorem mod_two_pow_succ_of_not_shiftMoves {d b t : Nat} (h : ¬ shiftMoves d b (2 ^ t) = true) {k : Nat} (hk : k < b) :
    k * (d - 1) % 2 ^ (t + 1) = k * (d - 1) % 2 ^ t := by
  have hbit : (k * (d - 1)).testBit t = false := by
    by_contra hone
    exact h (shiftMoves_two_pow_iff.mpr ⟨k, hk, Bool.eq_true_of_not_eq_false hone⟩)
  rw [Nat.mod_pow_succ, ← Nat.toNat_testBit, hbit, Bool.toNat_false, Nat.mul_zero, Nat.add_zero]

/-- Over the shifts below 2^t: when s divides each distance up to its low t bits, the last of s and the kept shifts divides
each distance. -/
theorem getLastD_shiftsBelow_dvd {d b : Nat} (t s : Nat)
    (h : ∀ k, k < b → k * (d - 1) % s = k * (d - 1) % 2 ^ t) {k : Nat} (hk : k < b) :
    ((shiftsBelow t).filter (shiftMoves d b)).getLastD s ∣ k * (d - 1) := by
  induction t generalizing s with
  | zero =>
    have hzero := h k hk
    rw [pow_zero, Nat.mod_one] at hzero
    exact Nat.dvd_of_mod_eq_zero hzero
  | succ t ih =>
    by_cases hmoves : shiftMoves d b (2 ^ t) = true
    · rw [shiftsBelow, List.filter_cons_of_pos hmoves, List.getLastD_cons]
      exact ih (2 ^ t) fun _ _ => rfl
    · rw [shiftsBelow, List.filter_cons_of_neg hmoves]
      exact ih s fun j hj => (h j hj).trans (mod_two_pow_succ_of_not_shiftMoves hmoves hj)

/-- The shift of the last entry, where entry 0, which moves nothing, counts as one with shift 64. -/
def lastShift (d b : Nat) : Nat := (keptShifts d b).getLastD 64

theorem lastShift_dvd {d b k : Nat} (hk : k < b) : lastShift d b ∣ k * (d - 1) :=
  getLastD_shiftsBelow_dvd 6 64 (fun _ _ => rfl) hk

/-- After the last pass every source bit is where it belongs (R84(d)). -/
theorem positionAfter_lastShift {d b k : Nat} (h : LegalPair d b) (hk : k < b) :
    positionAfter d (lastShift d b) k = k * d := by
  rw [positionAfter, Nat.mul_div_cancel' (lastShift_dvd hk), h.add_distance]

/-! ### NSTEPS (R84 (a) to (c)) -/

theorem keptShifts_eq_nil_iff {d b : Nat} (h : LegalPair d b) : keptShifts d b = [] ↔ b = 1 ∨ d = 1 := by
  constructor
  case mp =>
    intro hnil
    by_contra! hne
    obtain ⟨hb1, hd1⟩ := hne
    have hd64 := h.fst_le
    obtain ⟨hd, hb, -⟩ := h
    have hdvd : 64 ∣ d - 1 := by simpa [lastShift, hnil] using lastShift_dvd (d := d) (b := b) (k := 1) (by omega)
    have hle := Nat.le_of_dvd (by omega) hdvd
    omega
  case mpr =>
    intro hone
    have hdist : ∀ k, k < b → k * (d - 1) = 0 := by
      rintro k hk
      obtain rfl | rfl := hone
      · rw [Nat.lt_one_iff.mp hk, Nat.zero_mul]
      · rfl
    refine List.filter_eq_nil_iff.mpr fun s _ hmoves => ?_
    simp only [shiftMoves, List.any_eq_true, List.mem_range, bne_iff_ne] at hmoves
    obtain ⟨k, hk, hbit⟩ := hmoves
    rw [hdist k hk, Nat.zero_and] at hbit
    exact hbit rfl

theorem tables_mask_length_eq {d b : Nat} (h : LegalPair d b) :
    (tables d b).mask.length = (keptShifts d b).length + 1 := by
  rw [tables_mask_eq h, List.length_cons, List.length_map]

/-- The pairs whose table has seven entries (R84(c)). -/
def sevenStepPairs : List (Nat × Nat) :=
  [(4, 12), (4, 13), (4, 14), (4, 15), (4, 16), (6, 8), (6, 9), (6, 10), (8, 6), (8, 7), (8, 8), (10, 5), (10, 6),
   (12, 4), (12, 5), (14, 4), (16, 4)]

/-- All six passes are kept for these pairs alone: the closed form evaluated on the legal pairs. -/
theorem keptShifts_length_eq_six : ∀ d ∈ List.range 65, ∀ b ∈ List.range (64 / d + 1),
    ((keptShifts d b).length = 6 ↔ (d, b) ∈ sevenStepPairs) := by decide +kernel

theorem tables_mask_length_eq_seven_iff {d b : Nat} (h : LegalPair d b) :
    (tables d b).mask.length = 7 ↔ (d, b) ∈ sevenStepPairs := by
  have hb := (legalPair_iff_le_div.mp h).2
  rw [tables_mask_length_eq h]
  exact Nat.succ_inj.trans (keptShifts_length_eq_six d (List.mem_range.mpr (Nat.lt_succ_of_le h.fst_le)) b
    (List.mem_range.mpr (Nat.lt_succ_of_le hb)))

/-- The left shifts after the first are among 32, 16, 8, 4, 2, 1, in this order (R84(a)). -/
theorem tables_lshift_sublist {d b : Nat} (h : LegalPair d b) :
    ∃ ss : List Data, (tables d b).lshift = 0 :: ss ∧ ss.Sublist [32, 16, 8, 4, 2, 1] :=
  ⟨_, tables_lshift_eq h, List.filter_sublist.map (BitVec.ofNat 64)⟩

/-- The last left shift divides every distance; it is 0 only when every distance is 0 (R84(d)). -/
theorem distance_mod_last_lshift {d b k : Nat} {l : Data} (h : LegalPair d b)
    (hl : (tables d b).lshift.getLast? = some l) (hk : k < b) : k * (d - 1) % l.toNat = 0 := by
  have hdvd := lastShift_dvd (d := d) hk
  rw [tables_lshift_eq h, List.getLast?_cons, List.getLast?_map] at hl
  rw [lastShift, List.getLastD_eq_getLast?] at hdvd
  obtain rfl := Option.some.inj hl
  cases hlast : (keptShifts d b).getLast? with
  | none =>
    rw [hlast] at hdvd
    simpa using Nat.eq_zero_of_dvd_of_lt hdvd (h.distance_lt hk)
  | some s =>
    rw [hlast] at hdvd
    obtain ⟨i, hi, rfl⟩ := mem_shiftsBelow (t := 6).mp (List.mem_of_mem_filter (List.mem_of_getLast? hlast))
    rw [Option.map_some, Option.getD_some, toNat_ofNat_two_pow (by omega)]
    exact Nat.mod_eq_zero_of_dvd hdvd

/-! ### The masks (R84 (d), (e)) -/

/-- Every mask, entry 0's as that of a shift 64, has the source bits where R85 puts them. -/
theorem tables_mask_eq_map {d b : Nat} (h : LegalPair d b) :
    (tables d b).mask = (64 :: keptShifts d b).map fun s => bitsAt b (positionAfter d s) := by
  have hfull : fullMask b = bitsAt b (positionAfter d 64) := by
    rw [fullMask_eq_bitsAt]
    exact bitsAt_congr fun k hk => by rw [positionAfter, Nat.div_eq_of_lt (h.distance_lt hk)]; rfl
  rw [tables_mask_eq h, hfull, List.map_cons]

theorem tables_mask_getLast? {d b : Nat} (h : LegalPair d b) :
    (tables d b).mask.getLast? = some (bitsAt b fun k => k * d) := by
  rw [tables_mask_eq_map h, List.getLast?_map, List.getLast?_cons, ← List.getLastD_eq_getLast?, Option.map_some]
  exact congrArg some (bitsAt_congr fun k hk => positionAfter_lastShift h hk)

/-- The fully spread mask has the multiples of D below B*D. -/
theorem getLsbD_bitsAt_mul {d b : Nat} (h : LegalPair d b) (p : Nat) :
    (bitsAt b fun k => k * d).getLsbD p = (decide (p % d = 0) && decide (p / d < b)) := by
  have hiff : (∃ k, k < b ∧ k * d = p) ↔ p % d = 0 ∧ p / d < b := by
    constructor
    · rintro ⟨k, hk, rfl⟩
      exact ⟨Nat.mul_mod_left k d, by rwa [Nat.mul_div_cancel k h.1]⟩
    · rintro ⟨hmod, hdiv⟩
      exact ⟨p / d, hdiv, Nat.div_mul_cancel (Nat.dvd_of_mod_eq_zero hmod)⟩
  rw [Bool.eq_iff_iff, Bool.and_eq_true, decide_eq_true_iff, decide_eq_true_iff, ← hiff]
  by_cases hp : p < 64
  · simp [getLsbD_bitsAt b _ hp]
  · rw [BitVec.getLsbD_of_ge _ _ (by omega)]
    refine iff_of_false Bool.false_ne_true ?_
    rintro ⟨k, hk, rfl⟩
    exact hp (h.mul_lt hk)

/-- Later source bits stand higher, after every pass. -/
theorem positionAfter_strictMono (d s : Nat) : StrictMono (positionAfter d s) := fun _ _ hjk =>
  Nat.add_lt_add_of_lt_of_le hjk
    (Nat.mul_le_mul_left s (Nat.div_le_div_right (Nat.mul_le_mul_right (d - 1) hjk.le)))

theorem positionAfter_lt {d b k : Nat} (h : LegalPair d b) (s : Nat) (hk : k < b) : positionAfter d s k < 64 := by
  have hle : s * (k * (d - 1) / s) ≤ k * (d - 1) := Nat.mul_div_le _ s
  have hend := h.add_distance k
  have hlt := h.mul_lt hk
  rw [positionAfter]
  omega

/-- Distinct positions inside the word give as many bits as there are source bits. -/
theorem length_filter_getLsbD_bitsAt {b : Nat} {pos : Nat → Nat} (hmono : StrictMono pos)
    (hlt : ∀ k, k < b → pos k < 64) : ((List.range 64).filter fun p => (bitsAt b pos).getLsbD p).length = b := by
  have hperm : ((List.range 64).filter fun p => (bitsAt b pos).getLsbD p).Perm ((List.range b).map pos) := by
    refine (List.perm_ext_iff_of_nodup (List.nodup_range.filter _) (List.nodup_range.map hmono.injective)).mpr
      fun p => ?_
    simp only [List.mem_filter, List.mem_map, List.mem_range]
    constructor
    · rintro ⟨hp, hbit⟩
      simpa [getLsbD_bitsAt b pos hp] using hbit
    · rintro ⟨k, hk, rfl⟩
      rw [getLsbD_bitsAt b pos (hlt k hk)]
      exact ⟨hlt k hk, List.any_eq_true.mpr ⟨k, List.mem_range.mpr hk, beq_self_eq_true _⟩⟩
  rw [hperm.length_eq, List.length_map, List.length_range]

/-- Every mask has exactly B bits set (R84(e)). -/
theorem length_filter_getLsbD_of_mem_mask {d b : Nat} {m : Data} (h : LegalPair d b) (hm : m ∈ (tables d b).mask) :
    ((List.range 64).filter fun p => m.getLsbD p).length = b := by
  rw [tables_mask_eq_map h] at hm
  obtain ⟨s, -, rfl⟩ := List.mem_map.mp hm
  exact length_filter_getLsbD_bitsAt (positionAfter_strictMono d s) fun k hk => positionAfter_lt h s hk

/-- Settles O24, clause by clause. -/
theorem tableProperties : Obligations.TableProperties := by
  intro d b h
  refine ⟨tables_lshift_sublist h,
    ⟨tables_mask_length_pos d b, tables_mask_length_le h, tables_lshift_length d b, tables_rshift_length d b⟩,
    ?one, tables_mask_length_eq_seven_iff h, ⟨_, tables_mask_getLast? h, getLsbD_bitsAt_mul h⟩,
    fun l hl k hk => distance_mod_last_lshift h hl hk, fun m hm => length_filter_getLsbD_of_mem_mask h hm⟩
  case one => rw [tables_mask_length_eq h, Nat.add_eq_right, List.length_eq_zero_iff, keptShifts_eq_nil_iff h]

end Sys2Proof.Machine
end

section
/-! R95 and R98, pass by pass. A table holds one pass per kept shift; before the pass with shift s each source bit stands
where the shifts from 2s up have put it, after it where those from s up put it. A word whose source bits stand at given
positions is described by `HoldsAt`; a spread pass takes it from the earlier positions to the later ones and a gather pass
takes it back. -/

namespace Sys2Proof.Machine

/-! ### Where one pass moves the source bits -/

/-- The shifts from s up move a source bit as those from 2s up do, and by s more if its distance has the bit s. -/
theorem positionAfter_eq_double_add (d s k : Nat) :
    positionAfter d s k = positionAfter d (2 * s) k + s * (k * (d - 1) / s % 2) := by
  rw [positionAfter, positionAfter, Nat.mul_comm 2 s, ← Nat.div_div_eq_div_mul, Nat.mul_assoc, Nat.add_assoc,
    ← Nat.mul_add, Nat.div_add_mod]

/-- A pass that moves no source bit can be left out. -/
theorem positionAfter_double_of_not_shiftMoves {d b t k : Nat} (h : ¬ shiftMoves d b (2 ^ t) = true) (hk : k < b) :
    positionAfter d (2 ^ (t + 1)) k = positionAfter d (2 ^ t) k := by
  have hbit : k * (d - 1) / 2 ^ t % 2 = 0 := by
    rw [← Nat.toNat_testBit, Bool.toNat_eq_zero, ← Bool.not_eq_true]
    exact fun hone => h (shiftMoves_two_pow_iff.mpr ⟨k, hk, hone⟩)
  rw [Nat.pow_succ', positionAfter_eq_double_add d (2 ^ t) k, hbit]
  rfl

/-- No two source bits stand exactly one shift apart after the pass with that shift: they would be s source places apart,
and then their distances differ by a positive multiple of s. -/
theorem positionAfter_ne_add {d s : Nat} (hd : 2 ≤ d) (hs : 0 < s) (j k : Nat) :
    positionAfter d s k ≠ positionAfter d s j + s := by
  intro heq
  have hjk : j < k := (positionAfter_strictMono d s).lt_iff_lt.mp (by omega)
  obtain ⟨m, rfl⟩ := Nat.exists_eq_add_of_le hjk.le
  simp only [positionAfter, Nat.add_mul] at heq
  rcases Nat.lt_or_ge m s with hm | hm
  case inl =>
    have hquot : j * (d - 1) / s ≤ (j * (d - 1) + m * (d - 1)) / s := Nat.div_le_div_right (Nat.le_add_right _ _)
    obtain ⟨c, hc⟩ := Nat.exists_eq_add_of_le hquot
    rw [hc, Nat.mul_add] at heq
    have hmul : c = 0 ∨ s ≤ s * c := (Nat.eq_zero_or_pos c).imp_right (Nat.le_mul_of_pos_right s)
    rcases hmul with rfl | hmul <;> omega
  case inr =>
    have hgap : s ≤ m * (d - 1) := hm.trans (Nat.le_mul_of_pos_right m (by omega))
    have hquot : j * (d - 1) / s + 1 ≤ (j * (d - 1) + m * (d - 1)) / s := by
      rw [← Nat.add_div_right _ hs]
      exact Nat.div_le_div_right (Nat.add_le_add_left hgap _)
    have hmul := Nat.mul_le_mul_left s hquot
    rw [Nat.mul_add] at hmul
    omega

/-- The pass with shift s takes each of the B source bits from `pos` to `pos'`: it stays or moves up by s, and neither its
old place nor the place s above it becomes another's. -/
def PassMovesTo (b s : Nat) (pos pos' : Nat → Nat) : Prop :=
  ∀ j k, j < b → k < b → (pos' k = pos j ∨ pos' k = pos j + s ↔ j = k)

/-- A kept pass moves the source bits as R85 says. -/
theorem passMovesTo_positionAfter {d s : Nat} (hd : 2 ≤ d) (hs : 0 < s) (b : Nat) :
    PassMovesTo b s (positionAfter d (2 * s)) (positionAfter d s) := by
  intro j k _ _
  have hstep := positionAfter_eq_double_add d s j
  have hbit : j * (d - 1) / s % 2 = 0 ∨ j * (d - 1) / s % 2 = 1 := Nat.mod_two_eq_zero_or_one _
  have hinj : positionAfter d s k = positionAfter d s j ↔ j = k :=
    (positionAfter_strictMono d s).injective.eq_iff.trans eq_comm
  have hup := positionAfter_ne_add hd hs j k
  have hdown := positionAfter_ne_add hd hs k j
  rw [← hinj]
  rcases hbit with hbit | hbit <;> rw [hbit] at hstep <;> omega

/-! ### Words that hold the source bits at given positions -/

/-- Bit `pos k` of y is f k for each source bit k, and every other bit of y is 0. -/
def HoldsAt (b : Nat) (pos : Nat → Nat) (f : Nat → Bool) (y : Data) : Prop :=
  ∀ p, y.getLsbD p = true ↔ ∃ k, k < b ∧ pos k = p ∧ f k = true

theorem HoldsAt.congr {b : Nat} {pos pos' : Nat → Nat} {f : Nat → Bool} {y : Data} (h : HoldsAt b pos f y)
    (hpos : ∀ k, k < b → pos k = pos' k) : HoldsAt b pos' f y := fun p =>
  (h p).trans <| exists_congr fun k => and_congr_right fun hk => by rw [hpos k hk]

theorem getLsbD_bitsAt_iff {b : Nat} {pos : Nat → Nat} {p : Nat} (hpos : ∀ k, k < b → pos k < 64) :
    (bitsAt b pos).getLsbD p = true ↔ ∃ k, k < b ∧ pos k = p := by
  by_cases hp : p < 64
  · simp [getLsbD_bitsAt b pos hp]
  · rw [BitVec.getLsbD_of_ge _ _ (by omega)]
    refine iff_of_false Bool.false_ne_true ?_
    rintro ⟨k, hk, rfl⟩
    exact hp (hpos k hk)

/-- A word masked with the places of the source bits holds what stood there. -/
theorem holdsAt_and_bitsAt {b : Nat} {pos : Nat → Nat} {f : Nat → Bool} {z : Data} (hpos : ∀ k, k < b → pos k < 64)
    (hz : ∀ k, k < b → (z.getLsbD (pos k) = true ↔ f k = true)) : HoldsAt b pos f (z &&& bitsAt b pos) := by
  intro p
  rw [BitVec.getLsbD_and, Bool.and_eq_true, getLsbD_bitsAt_iff hpos]
  constructor
  · rintro ⟨hbit, k, hk, rfl⟩
    exact ⟨k, hk, rfl, (hz k hk).mp hbit⟩
  · rintro ⟨k, hk, rfl, hf⟩
    exact ⟨(hz k hk).mpr hf, k, hk, rfl⟩

/-- With shift 0 both passes only mask. -/
theorem spreadPass_zero (x m : Data) : spreadPass x (m, 0) = x &&& m := by
  simp [spreadPass]

theorem gatherPass_zero (x m : Data) : gatherPass (m, 0) x = x &&& m := by
  simp [gatherPass]

/-- One spread pass brings the source bits to their later places (R95). -/
theorem HoldsAt.spreadPass {b : Nat} {pos pos' : Nat → Nat} {f : Nat → Bool} {y sh : Data} (h : HoldsAt b pos f y)
    (hmove : PassMovesTo b sh.toNat pos pos') (hpos' : ∀ k, k < b → pos' k < 64) :
    HoldsAt b pos' f (spreadPass y (bitsAt b pos', sh)) := by
  refine holdsAt_and_bitsAt hpos' fun k hk => ?_
  have hbit : (y ||| y <<< sh).getLsbD (pos' k) = true ↔
      ∃ j, j < b ∧ (pos' k = pos j ∨ pos' k = pos j + sh.toNat) ∧ f j = true := by
    rw [BitVec.getLsbD_or, BitVec.shiftLeft_eq', BitVec.getLsbD_shiftLeft, Bool.or_eq_true, Bool.and_eq_true, h, h]
    simp only [hpos' k hk, decide_true, Bool.true_and, Bool.not_eq_true', decide_eq_false_iff_not]
    constructor
    · rintro (⟨j, hj, hpos, hf⟩ | ⟨hle, j, hj, hpos, hf⟩)
      · exact ⟨j, hj, .inl hpos.symm, hf⟩
      · exact ⟨j, hj, .inr (by omega), hf⟩
    · rintro ⟨j, hj, hpos | hpos, hf⟩
      · exact .inl ⟨j, hj, hpos.symm, hf⟩
      · exact .inr ⟨by omega, j, hj, by omega, hf⟩
  rw [hbit]
  constructor
  · rintro ⟨j, hj, hplace, hf⟩
    rwa [← (hmove j k hj hk).mp hplace]
  · exact fun hf => ⟨k, hk, (hmove k k hk hk).mpr rfl, hf⟩

/-- One gather pass takes the source bits back to their earlier places (R98). -/
theorem HoldsAt.gatherPass {b : Nat} {pos pos' : Nat → Nat} {f : Nat → Bool} {y sh : Data} (h : HoldsAt b pos' f y)
    (hmove : PassMovesTo b sh.toNat pos pos') (hpos : ∀ k, k < b → pos k < 64) :
    HoldsAt b pos f (gatherPass (bitsAt b pos, sh) y) := by
  refine holdsAt_and_bitsAt hpos fun j hj => ?_
  have hbit : (y ||| y >>> sh).getLsbD (pos j) = true ↔
      ∃ k, k < b ∧ (pos' k = pos j ∨ pos' k = pos j + sh.toNat) ∧ f k = true := by
    rw [BitVec.getLsbD_or, BitVec.ushiftRight_eq', BitVec.getLsbD_ushiftRight, Bool.or_eq_true, h, h,
      Nat.add_comm sh.toNat]
    simp only [or_and_right, and_or_left, exists_or]
  rw [hbit]
  constructor
  · rintro ⟨k, hk, hplace, hf⟩
    rwa [(hmove j k hj hk).mp hplace]
  · exact fun hf => ⟨j, hj, (hmove j j hj hj).mpr rfl, hf⟩

/-! ### The passes of a table -/

/-- With one dimension every distance is 0, so a shift that moves a bit needs two. -/
theorem two_le_of_shiftMoves {d b t : Nat} (h : shiftMoves d b (2 ^ t) = true) : 2 ≤ d := by
  obtain ⟨k, -, hbit⟩ := shiftMoves_two_pow_iff.mp h
  by_contra hd
  rw [show d - 1 = 0 by omega, Nat.mul_zero, Nat.zero_testBit] at hbit
  exact Bool.false_ne_true hbit

/-- The kept pass with shift 2^t, as the registers hold the shift. -/
theorem passMovesTo_two_pow {d b t : Nat} (ht : t < 64) (h : shiftMoves d b (2 ^ t) = true) :
    PassMovesTo b (BitVec.ofNat 64 (2 ^ t)).toNat (positionAfter d (2 ^ (t + 1))) (positionAfter d (2 ^ t)) := by
  rw [toNat_ofNat_two_pow ht, Nat.pow_succ']
  exact passMovesTo_positionAfter (two_le_of_shiftMoves h) (Nat.two_pow_pos t) b

/-- The shift 1 leaves every source bit fully spread. -/
theorem positionAfter_one {d b : Nat} (h : LegalPair d b) (k : Nat) : positionAfter d 1 k = k * d := by
  rw [positionAfter, Nat.div_one, Nat.one_mul, h.add_distance]

/-- The shift 64, larger than every distance, moves nothing. -/
theorem positionAfter_sixtyFour {d b k : Nat} (h : LegalPair d b) (hk : k < b) : positionAfter d (2 ^ 6) k = k := by
  have hquot : k * (d - 1) / 2 ^ 6 = 0 := Nat.div_eq_of_lt (h.distance_lt hk)
  rw [positionAfter, hquot]
  rfl

/-- The kept passes below 2^t, front to back, spread the source bits fully. -/
theorem HoldsAt.foldl_spreadPass {d b t : Nat} {f : Nat → Bool} {y : Data} (hlegal : LegalPair d b) (ht : t ≤ 64)
    (h : HoldsAt b (positionAfter d (2 ^ t)) f y) :
    HoldsAt b (fun k => k * d) f
      ((((shiftsBelow t).filter (shiftMoves d b)).map (passEntry d b)).foldl Machine.spreadPass y) := by
  induction t generalizing y with
  | zero => exact h.congr fun k _ => positionAfter_one hlegal k
  | succ t ih =>
    by_cases hmoves : shiftMoves d b (2 ^ t) = true
    · rw [shiftsBelow, List.filter_cons_of_pos hmoves, List.map_cons, List.foldl_cons]
      exact ih (by omega) (h.spreadPass (passMovesTo_two_pow ht hmoves) fun k hk => positionAfter_lt hlegal _ hk)
    · rw [shiftsBelow, List.filter_cons_of_neg hmoves]
      exact ih (by omega) (h.congr fun k hk => positionAfter_double_of_not_shiftMoves hmoves hk)

/-- The entries of a gather from the pass with shift s, the shifts `ss` behind it: each mask beside the shift of the next
pass, the last mask beside 0 (R81). -/
def gatherEntries (d b : Nat) : Nat → List Nat → List (Data × Data)
  | s, [] => [(bitsAt b (positionAfter d s), 0)]
  | s, s' :: ss => (bitsAt b (positionAfter d s), BitVec.ofNat 64 s') :: gatherEntries d b s' ss

/-- A pass without a moving bit can be left out: the entries depend on the places alone. -/
theorem gatherEntries_congr {d b s s' : Nat} (h : ∀ k, k < b → positionAfter d s k = positionAfter d s' k)
    (ss : List Nat) : gatherEntries d b s ss = gatherEntries d b s' ss := by
  cases ss <;> simp [gatherEntries, bitsAt_congr h]

/-- The kept passes below 2^t, back to front, collect the fully spread bits of any word. -/
theorem holdsAt_foldr_gatherPass {d b t : Nat} (hlegal : LegalPair d b) (ht : t ≤ 64) (x : Data) :
    HoldsAt b (positionAfter d (2 ^ t)) (fun k => x.getLsbD (k * d))
      ((gatherEntries d b (2 ^ t) ((shiftsBelow t).filter (shiftMoves d b))).foldr gatherPass x) := by
  induction t with
  | zero =>
    rw [shiftsBelow, List.filter_nil, gatherEntries, List.foldr_cons, List.foldr_nil, gatherPass_zero]
    refine holdsAt_and_bitsAt (fun k hk => positionAfter_lt hlegal _ hk) fun k _ => ?_
    rw [pow_zero, positionAfter_one hlegal]
  | succ t ih =>
    by_cases hmoves : shiftMoves d b (2 ^ t) = true
    · rw [shiftsBelow, List.filter_cons_of_pos hmoves, gatherEntries, List.foldr_cons]
      exact (ih (by omega)).gatherPass (passMovesTo_two_pow ht hmoves) fun k hk => positionAfter_lt hlegal _ hk
    · have hsame := fun k hk => positionAfter_double_of_not_shiftMoves (k := k) hmoves hk
      rw [shiftsBelow, List.filter_cons_of_neg hmoves, gatherEntries_congr hsame]
      exact (ih (by omega)).congr fun k hk => (hsame k hk).symm

end Sys2Proof.Machine
end

section
/-! R96 and R99: what spread and gather compute, from the passes of the table of a configured engine. -/

namespace Sys2Proof.Machine

/-! ### The steps of a configured engine -/

theorem spreadSteps_eq {e : Engine} {d b : Nat} (h : e.Configured d b) :
    e.spreadSteps = (fullMask b, 0) :: (keptShifts d b).map (passEntry d b) := by
  rw [e.spreadSteps_of_configured h, tables_mask_eq h.1, tables_lshift_eq h.1, List.zip_cons_cons, List.zip_map']
  rfl

/-- The masks, each beside the next pass's shift, are the entries of a gather from the shift s. -/
theorem zip_masks_shifts_eq_gatherEntries (d b s : Nat) (ss : List Nat) :
    ((s :: ss).map fun s => bitsAt b (positionAfter d s)).zip (ss.map (BitVec.ofNat 64) ++ [0]) =
      gatherEntries d b s ss := by
  induction ss generalizing s with
  | nil => rfl
  | cons s' ss ih => rw [gatherEntries, ← ih s']; rfl

theorem gatherSteps_eq {e : Engine} {d b : Nat} (h : e.Configured d b) :
    e.gatherSteps = gatherEntries d b 64 (keptShifts d b) := by
  have hrshift : (tables d b).rshift = (keptShifts d b).map (BitVec.ofNat 64) ++ [0] := by
    change gatherShifts (tables d b).lshift = _
    rw [tables_lshift_eq h.1]
    rfl
  rw [e.gatherSteps_of_configured h, tables_mask_eq_map h.1, hrshift, zip_masks_shifts_eq_gatherEntries]

/-! ### The closed forms, bit by bit -/

/-- The fully spread places are the multiples of D below B*D. -/
theorem HoldsAt.getLsbD_mul {d b : Nat} {f : Nat → Bool} {y : Data} (h : HoldsAt b (fun k => k * d) f y) (hd : 1 ≤ d)
    (p : Nat) : y.getLsbD p = (decide (p % d = 0) && decide (p / d < b) && f (p / d)) := by
  rw [Bool.eq_iff_iff, h p]
  simp only [Bool.and_eq_true, decide_eq_true_iff]
  constructor
  · rintro ⟨k, hk, rfl, hf⟩
    rw [Nat.mul_mod_left, Nat.mul_div_cancel k hd]
    exact ⟨⟨rfl, hk⟩, hf⟩
  · rintro ⟨⟨hmod, hk⟩, hf⟩
    exact ⟨p / d, hk, Nat.div_mul_cancel (Nat.dvd_of_mod_eq_zero hmod), hf⟩

/-- R96: bit k of x moves to bit k*D. -/
theorem Engine.Configured.getLsbD_spread {e : Engine} {d b : Nat} (h : e.Configured d b) (x : Data) (p : Nat) :
    (e.spread x).getLsbD p = (decide (p % d = 0) && decide (p / d < b) && x.getLsbD (p / d)) := by
  have hlegal : LegalPair d b := h.1
  have hstart : HoldsAt b (positionAfter d (2 ^ 6)) x.getLsbD (spreadPass x (fullMask b, 0)) := by
    have hmask : fullMask b = bitsAt b (positionAfter d (2 ^ 6)) :=
      (fullMask_eq_bitsAt b).trans (bitsAt_congr fun k hk => (positionAfter_sixtyFour hlegal hk).symm)
    rw [spreadPass_zero, hmask]
    exact holdsAt_and_bitsAt (fun k hk => positionAfter_lt hlegal _ hk) fun k hk => by
      rw [positionAfter_sixtyFour hlegal hk]
  have hend := hstart.foldl_spreadPass hlegal (by decide)
  rw [Engine.spread, spreadSteps_eq h, List.foldl_cons]
  exact hend.getLsbD_mul hlegal.1 p

/-- R99: bit k of the gathered value is bit k*D of x. -/
theorem Engine.Configured.getLsbD_gather {e : Engine} {d b : Nat} (h : e.Configured d b) (x : Data) (k : Nat) :
    (e.gather x).getLsbD k = (decide (k < b) && x.getLsbD (k * d)) := by
  have hlegal : LegalPair d b := h.1
  have hend := holdsAt_foldr_gatherPass (t := 6) hlegal (by decide) x
  rw [Engine.gather, gatherSteps_eq h, Bool.eq_iff_iff]
  refine (hend k).trans ?_
  rw [Bool.and_eq_true, decide_eq_true_iff]
  constructor
  · rintro ⟨j, hj, rfl, hbit⟩
    rw [positionAfter_sixtyFour hlegal hj]
    exact ⟨hj, hbit⟩
  · rintro ⟨hk, hbit⟩
    exact ⟨k, hk, positionAfter_sixtyFour hlegal hk, hbit⟩

/-- A word whose bits below n are those of x and whose other bits are 0 is x modulo 2^n. -/
theorem toNat_eq_mod_two_pow {x y : Data} {n : Nat} (h : ∀ p, y.getLsbD p = (decide (p < n) && x.getLsbD p)) :
    y.toNat = x.toNat % 2 ^ n := by
  apply Nat.eq_of_testBit_eq
  intro p
  rw [Nat.testBit_mod_two_pow, BitVec.testBit_toNat, BitVec.testBit_toNat, h p]

/-- Bit 0 alone is the value modulo 2. -/
theorem toNat_mod_two_pow_one (x : Data) : x.toNat % 2 ^ 1 = (x.getLsbD 0).toNat := by
  rw [BitVec.getLsbD, Nat.toNat_testBit, pow_zero, Nat.div_one, pow_one]

/-! ### The corner cases -/

/-- With one dimension nothing is spread: the low B bits stay where they are. -/
theorem Engine.Configured.toNat_spread_of_d_one {e : Engine} {b : Nat} (h : e.Configured 1 b) (x : Data) :
    (e.spread x).toNat = x.toNat % 2 ^ b :=
  toNat_eq_mod_two_pow fun p => by simp [h.getLsbD_spread, Nat.mod_one]

theorem Engine.Configured.toNat_gather_of_d_one {e : Engine} {b : Nat} (h : e.Configured 1 b) (x : Data) :
    (e.gather x).toNat = x.toNat % 2 ^ b :=
  toNat_eq_mod_two_pow fun p => by rw [h.getLsbD_gather, Nat.mul_one]

/-- With one bit per lane only bit 0 counts. -/
theorem Engine.Configured.toNat_spread_of_b_one {e : Engine} {d : Nat} (h : e.Configured d 1) (x : Data) :
    (e.spread x).toNat = (x.getLsbD 0).toNat := by
  rw [← toNat_mod_two_pow_one]
  refine toNat_eq_mod_two_pow fun p => ?_
  rw [h.getLsbD_spread]
  by_cases hp : p = 0
  · simp [hp]
  · have hnot : ¬ (p % d = 0 ∧ p / d < 1) := fun ⟨hmod, hdiv⟩ => hp <| by
      rw [← Nat.div_add_mod p d, hmod, Nat.lt_one_iff.mp hdiv, Nat.mul_zero]
    rw [← Bool.decide_and, decide_eq_false hnot]
    simp [hp]

theorem Engine.Configured.toNat_gather_of_b_one {e : Engine} {d : Nat} (h : e.Configured d 1) (x : Data) :
    (e.gather x).toNat = (x.getLsbD 0).toNat := by
  rw [← toNat_mod_two_pow_one]
  refine toNat_eq_mod_two_pow fun p => ?_
  rw [h.getLsbD_gather]
  by_cases hp : p = 0
  · simp [hp]
  · simp [hp]

/-- With one dimension the table has its first entry only (R84(b)). -/
theorem Engine.Configured.nsteps_of_d_one {e : Engine} {b : Nat} (h : e.Configured 1 b) : e.nsteps = 1 := by
  obtain ⟨hlegal, -, -, -, hn, -⟩ := h
  have hnil := (keptShifts_eq_nil_iff hlegal).mpr (.inr rfl)
  apply BitVec.eq_of_toNat_eq
  rw [hn, tables_mask_length_eq hlegal, hnil]
  rfl

theorem Engine.Configured.spread_zero {e : Engine} {d b : Nat} (h : e.Configured d b) : e.spread 0 = 0 :=
  BitVec.eq_of_getLsbD_eq fun p _ => by rw [h.getLsbD_spread]; simp

/-- The last mask is the spread of B ones. -/
theorem Engine.Configured.mask_getLast? {e : Engine} {d b : Nat} (h : e.Configured d b) :
    (tables d b).mask.getLast? = some (e.spread (fullMask b)) := by
  rw [tables_mask_getLast? h.1]
  refine congrArg some (BitVec.eq_of_getLsbD_eq fun p _ => ?_)
  rw [getLsbD_bitsAt_mul h.1, h.getLsbD_spread, fullMask, BitVec.getLsbD_ofNat, Nat.testBit_two_pow_sub_one]
  by_cases hk : p / d < b
  · have hword : p / d < 64 := hk.trans_le h.1.snd_le
    simp [hk, hword]
  · simp [hk]

/-- Settles O27: the bits, then the corner cases read off them. -/
theorem spreadMovesBits : Obligations.SpreadMovesBits := by
  intro e d b h
  have hlegal : LegalPair d b := h.1
  refine ⟨h.getLsbD_spread, ?width, ?dims, ?bits, h.spread_zero, h.mask_getLast?⟩
  case width => exact Nat.le_of_lt_succ (hlegal.mul_lt (Nat.sub_lt hlegal.2.1 Nat.one_pos))
  case dims =>
    rintro rfl
    exact ⟨h.nsteps_of_d_one, h.toNat_spread_of_d_one⟩
  case bits =>
    rintro rfl
    exact h.toNat_spread_of_b_one

/-! ### Spread and gather undo each other -/

theorem Engine.Configured.toNat_gather_spread {e : Engine} {d b : Nat} (h : e.Configured d b) (v : Data) :
    (e.gather (e.spread v)).toNat = v.toNat % 2 ^ b := by
  refine toNat_eq_mod_two_pow fun k => ?_
  have hd : 0 < d := h.1.1
  rw [h.getLsbD_gather, h.getLsbD_spread, Nat.mul_mod_left, Nat.mul_div_cancel k hd]
  cases decide (k < b) <;> rfl

theorem Engine.Configured.spread_gather {e : Engine} {d b : Nat} (h : e.Configured d b) {x m : Data}
    (hm : (tables d b).mask.getLast? = some m) : e.spread (e.gather x) = x &&& m := by
  rw [tables_mask_getLast? h.1] at hm
  obtain rfl := Option.some.inj hm
  refine BitVec.eq_of_getLsbD_eq fun p _ => ?_
  rw [h.getLsbD_spread, h.getLsbD_gather, BitVec.getLsbD_and, getLsbD_bitsAt_mul h.1, Bool.and_comm (x.getLsbD p)]
  by_cases hmod : p % d = 0
  · rw [Nat.div_mul_cancel (Nat.dvd_of_mod_eq_zero hmod), Bool.and_assoc, Bool.and_assoc, Bool.and_self_left]
  · simp [hmod]

/-- Settles O28: the bits, both compositions, and the corner cases. -/
theorem gatherCollectsBits : Obligations.GatherCollectsBits := by
  intro e d b h
  refine ⟨h.getLsbD_gather, h.toNat_gather_spread, fun x m hm => h.spread_gather hm, ?dims, ?bits⟩
  case dims =>
    rintro rfl
    exact h.toNat_gather_of_d_one
  case bits =>
    rintro rfl
    exact h.toNat_gather_of_b_one

end Sys2Proof.Machine
end

section
/-! R101 to R108: what PACK and UNPACK answer in each case, the bits they move, and what they read. -/

namespace Sys2Proof.Machine

/-! ### The ends of a PACK, in the order of R102 -/

/-- The code of the first D lanes (R101). -/
def Engine.packedCode (e : Engine) : Data := e.interleave (e.lanes e.d.toNat)

theorem exec_pack_of_not_valid {s : State} (n : Byte) (hv : s.engine.valid = false) :
    exec (.pack n) s = .next (s.answer s.engine .notConfigured 0) :=
  whenConfigured_of_not_valid _ hv

theorem exec_pack_of_count_ne {s : State} {n : Byte} (hv : s.engine.valid = true)
    (hn : n.toNat ≠ s.engine.d.toNat) :
    exec (.pack n) s =
      .next (s.answer s.engine .dimensionMismatch (infoWord (s.engine.d.setWidth 64) (n.setWidth 64))) := by
  change execPack n s = _
  rw [execPack, whenConfigured_of_valid _ hv, if_pos hn, raise_next]

theorem exec_pack_of_offender {s : State} {n : Byte} {x : Data} (hv : s.engine.valid = true)
    (hn : n.toNat = s.engine.d.toNat)
    (hx : firstUnsignedOffender s.engine.b.toNat (s.engine.lanes s.engine.d.toNat) = some x) :
    exec (.pack n) s = .next (s.answer s.engine .valueOutOfRange x) := by
  change execPack n s = _
  rw [execPack, whenConfigured_of_valid _ hv, if_neg (not_not_intro hn), hx]
  rfl

theorem exec_pack_of_no_offender {s : State} {n : Byte} (hv : s.engine.valid = true)
    (hn : n.toNat = s.engine.d.toNat)
    (hnone : firstUnsignedOffender s.engine.b.toNat (s.engine.lanes s.engine.d.toNat) = none) :
    exec (.pack n) s = .next (s.answer (s.engine.setCode s.engine.packedCode) .ok s.engine.packedCode) := by
  change execPack n s = _
  rw [execPack, whenConfigured_of_valid _ hv, if_neg (not_not_intro hn), hnone]
  rfl

/-- The scan of R102 finds nothing when the D lanes are in range. -/
theorem firstUnsignedOffender_lanes_none {e : Engine} {n : Nat} (h : e.LanesInRange n) :
    firstUnsignedOffender e.b.toNat (e.lanes n) = none := by
  refine firstUnsignedOffender_none.mpr fun x hx => ?_
  obtain ⟨k, hk, rfl⟩ := Engine.mem_lanes.mp hx
  exact h k hk

/-- PACK with the right count and every lane in range writes the code (R101). -/
theorem exec_pack_of_inRange {s : State} {n : Byte} {d b : Nat} (h : s.engine.Configured d b) (hn : n.toNat = d)
    (hrange : s.engine.LanesInRange d) :
    exec (.pack n) s = .next (s.answer (s.engine.setCode s.engine.packedCode) .ok s.engine.packedCode) := by
  obtain ⟨-, hv, rfl, -⟩ := h
  exact exec_pack_of_no_offender hv hn (firstUnsignedOffender_lanes_none hrange)

/-! ### The ends of an UNPACK and of an SUNPACK -/

/-- Both unpacking commands write lanes that they compute from C (R105, R121). -/
theorem exec_unpack (s : State) :
    exec .unpack s = whenConfigured s (respond 0 (s.engine.writeLanes s.engine.codeLane) s) := rfl

theorem exec_sunpack (s : State) :
    exec .sunpack s = whenConfigured s
      (respond 0 (s.engine.writeLanes fun i => signDec s.engine.b.toNat (s.engine.codeLane i)) s) := rfl

theorem exec_unpack_of_valid {s : State} (hv : s.engine.valid = true) :
    exec .unpack s = .next (s.answer (s.engine.writeLanes s.engine.codeLane) .ok 0) := by
  rw [exec_unpack, whenConfigured_of_valid _ hv, respond_next]

/-! ### The bits of lanes and codes -/

/-- R106: bit k of lane i of the code is bit k*D + i of C. -/
theorem Engine.Configured.getLsbD_codeLane {e : Engine} {d b : Nat} (h : e.Configured d b) (i k : Nat) :
    (e.codeLane i).getLsbD k = (decide (k < b) && e.c.getLsbD (k * d + i)) := by
  rw [Engine.codeLane, h.getLsbD_gather, BitVec.getLsbD_ushiftRight, Nat.add_comm]

theorem Engine.Configured.lanesInRange_writeLanes_codeLane {e : Engine} {d b : Nat} (h : e.Configured d b) :
    (e.writeLanes e.codeLane).LanesInRange d := by
  intro i hi
  obtain ⟨-, -, hd, hb, -⟩ := id h
  rw [Engine.lane_writeLanes, hd, if_pos hi, Engine.writeLanes_b, hb]
  refine Nat.lt_pow_two_of_testBit _ fun k hk => ?_
  rw [BitVec.testBit_toNat, h.getLsbD_codeLane, decide_eq_false (Nat.not_lt.mpr hk), Bool.false_and]

theorem getLsbD_foldl_or_shiftLeft (f : Data → Data) {p : Nat} (hp : p < 64) (ps : List (Data × Nat)) (m : Data) :
    (ps.foldl (fun code q => code ||| (f q.1 <<< q.2)) m).getLsbD p =
      (m.getLsbD p || ps.any fun q => decide (q.2 ≤ p) && (f q.1).getLsbD (p - q.2)) := by
  induction ps generalizing m with
  | nil => simp
  | cons q ps ih =>
    have hbit : (f q.1 <<< q.2).getLsbD p = (decide (q.2 ≤ p) && (f q.1).getLsbD (p - q.2)) := by
      simp only [BitVec.getLsbD_shiftLeft, hp, decide_true, Bool.true_and, ← decide_not, not_lt]
    rw [List.foldl_cons, ih, BitVec.getLsbD_or, hbit, List.any_cons, Bool.or_assoc]

/-- A bit of an interleaved word is one of the spread lane i, i places up. -/
theorem Engine.getLsbD_interleave_iff (e : Engine) (xs : List Data) {p : Nat} (hp : p < 64) :
    (e.interleave xs).getLsbD p = true ↔
      ∃ i x, xs[i]? = some x ∧ i ≤ p ∧ (e.spread x).getLsbD (p - i) = true := by
  rw [Engine.interleave, getLsbD_foldl_or_shiftLeft e.spread hp]
  simp only [BitVec.ofNat_eq_ofNat, BitVec.getLsbD_zero, Bool.false_or, List.any_eq_true, Prod.exists, Bool.and_eq_true,
    decide_eq_true_iff, List.mk_mem_zipIdx_iff_getElem?]
  exact exists_comm

theorem Engine.getElem?_lanes (e : Engine) {n : Nat} {k : Fin 64} (hk : k.val < n) :
    (e.lanes n)[k.val]? = some (e.lane k) := by
  have hlen : k.val < (e.lanes n).length := by rw [e.length_lanes]; omega
  rw [List.getElem?_eq_getElem hlen, e.getElem_lanes]

/-- The one place below d from which steps of d reach p is the remainder of p. -/
theorem sub_mod_eq_zero_iff {d i p : Nat} (hi : i < d) : i ≤ p ∧ (p - i) % d = 0 ↔ i = p % d := by
  constructor
  · rintro ⟨hle, hmod⟩
    rw [← Nat.mod_eq_of_lt hi]
    exact (Nat.modEq_iff_dvd' hle).mpr (Nat.dvd_of_mod_eq_zero hmod)
  · rintro rfl
    exact ⟨Nat.mod_le p d, Nat.sub_mod_eq_zero_of_mod_eq (Nat.mod_mod p d).symm⟩

/-- R103: bit p of the code of the D lanes is bit floor(p/D) of lane p mod D; bits at and above B*D are 0. -/
theorem Engine.Configured.getLsbD_packedCode {e : Engine} {d b : Nat} (h : e.Configured d b) {p : Nat} {i : Fin 64}
    (hi : i.val = p % d) : e.packedCode.getLsbD p = (decide (p / d < b) && (e.lane i).getLsbD (p / d)) := by
  obtain ⟨⟨hd, -, hdb⟩, -, hdim, -⟩ := id h
  have hid : i.val < d := hi ▸ Nat.mod_lt p hd
  rcases Nat.lt_or_ge p 64 with hp | hp
  case inr =>
    have hcode : ¬ p / d < b := by rw [Nat.div_lt_iff_lt_mul hd, Nat.mul_comm b]; omega
    rw [BitVec.getLsbD_of_ge _ _ hp, decide_eq_false hcode, Bool.false_and]
  case inl =>
    rw [Bool.eq_iff_iff, Engine.packedCode, hdim, e.getLsbD_interleave_iff _ hp]
    simp only [h.getLsbD_spread, Bool.and_eq_true, decide_eq_true_iff]
    constructor
    · rintro ⟨j, x, hx, hle, ⟨hmod, hlt⟩, hbit⟩
      have hj : j < d := by
        have hlen := (List.getElem?_eq_some_iff.mp hx).1
        rw [e.length_lanes] at hlen
        omega
      obtain rfl : j = i.val := ((sub_mod_eq_zero_iff hj).mp ⟨hle, hmod⟩).trans hi.symm
      obtain rfl := Option.some.inj ((e.getElem?_lanes hid).symm.trans hx)
      rw [hi, ← Nat.div_eq_sub_mod_div] at hlt hbit
      exact ⟨hlt, hbit⟩
    · rintro ⟨hlt, hbit⟩
      obtain ⟨hle, hmod⟩ := (sub_mod_eq_zero_iff hid).mpr hi
      have hdiv : (p - i.val) / d = p / d := by rw [hi, ← Nat.div_eq_sub_mod_div]
      exact ⟨i.val, e.lane i, e.getElem?_lanes hid, hle, ⟨hmod, hdiv ▸ hlt⟩, hdiv ▸ hbit⟩

/-! ### UNPACK -/

/-- Writing the lanes depends on the first D of the new ones. -/
theorem Engine.writeLanes_congr {e : Engine} {f g : Nat → Data} (h : ∀ i, i < e.d.toNat → f i = g i) :
    e.writeLanes f = e.writeLanes g := by
  have hv : (e.writeLanes f).v = (e.writeLanes g).v := Engine.v_ext fun k => by
    rw [e.lane_writeLanes, e.lane_writeLanes]
    split
    · exact h _ ‹_›
    · rfl
  exact congrArg (fun v => { e with v := v }) hv

/-- The lanes of a code depend on no bit at or above B*D (R106). -/
theorem Engine.Configured.codeLane_congr {e : Engine} {d b i : Nat} (h : e.Configured d b) {c : Data}
    (hc : ∀ p, p < b * d → c.getLsbD p = e.c.getLsbD p) (hi : i < d) :
    (e.setCode c).codeLane i = e.codeLane i := by
  have hcode : (e.setCode c).Configured d b := h
  refine BitVec.eq_of_getLsbD_eq fun k _ => ?_
  rw [hcode.getLsbD_codeLane, h.getLsbD_codeLane, Engine.setCode_c]
  by_cases hk : k < b
  · have hp : k * d + i < b * d := by
      have hle : (k + 1) * d ≤ b * d := Nat.mul_le_mul_right d hk
      rw [Nat.succ_mul] at hle
      omega
    rw [hc _ hp]
  · rw [decide_eq_false hk, Bool.false_and, Bool.false_and]

/-- Settles O31: UNPACK writes the lanes of the code into V[0] .. V[D-1]. -/
theorem unpackExtractsBits : Obligations.UnpackExtractsBits := by
  intro s d b h
  obtain ⟨-, hv, hd, -⟩ := id h
  refine ⟨_, exec_unpack_of_valid hv, ?lanes, ?others, ⟨rfl, rfl, rfl, rfl, rfl, rfl, rfl⟩, rfl, ?code⟩
  case lanes =>
    intro i k hi
    rw [Engine.lane_writeLanes, hd, if_pos hi, h.getLsbD_codeLane]
  case others =>
    intro i hi
    rw [Engine.lane_writeLanes, hd, if_neg (by omega)]
  case code =>
    intro c hc
    have hlanes : (s.engine.setCode c).writeLanes (s.engine.setCode c).codeLane =
        (s.engine.setCode c).writeLanes s.engine.codeLane :=
      Engine.writeLanes_congr fun i hi => h.codeLane_congr hc (hd ▸ hi)
    have hend := exec_unpack_of_valid (s := { s with engine := s.engine.setCode c }) hv
    rw [hlanes] at hend
    exact hend

/-! ### What the commands read (R108) -/

theorem SameConfig.spread_eq {e f : Engine} (h : SameConfig e f) : f.spread = e.spread := by
  obtain ⟨-, -, -, hn, hm, hl, -⟩ := h
  funext x
  rw [Engine.spread, Engine.spread, Engine.spreadSteps, Engine.spreadSteps, hn, hm, hl]

theorem SameConfig.gather_eq {e f : Engine} (h : SameConfig e f) : f.gather = e.gather := by
  obtain ⟨-, -, -, hn, hm, -, hr⟩ := h
  funext x
  rw [Engine.gather, Engine.gather, Engine.gatherSteps, Engine.gatherSteps, hn, hm, hr]

theorem SameConfig.codeLane_eq {e f : Engine} (h : SameConfig e f) (hc : f.c = e.c) : f.codeLane = e.codeLane := by
  funext i
  rw [Engine.codeLane, Engine.codeLane, h.gather_eq, hc]

/-- PACK answers alike from two engines with the same configuration and the same first D lanes. -/
theorem exec_pack_pure {s t : State} (h : SameConfig s.engine t.engine)
    (hlanes : ∀ k : Fin 64, k.val < s.engine.d.toNat → t.engine.lane k = s.engine.lane k) (n : Byte) :
    ∃ st x e f, exec (.pack n) s = .next (s.answer e st x) ∧ exec (.pack n) t = .next (t.answer f st x) ∧
      (st = .ok → e = { s.engine with c := x } ∧ f = { t.engine with c := x }) := by
  obtain ⟨hvalid, hd, hb, -⟩ := id h
  have hcongr : t.engine.lanes t.engine.d.toNat = s.engine.lanes s.engine.d.toNat := by
    rw [hd, Engine.lanes_congr hlanes]
  have hscan : firstUnsignedOffender t.engine.b.toNat (t.engine.lanes t.engine.d.toNat) =
      firstUnsignedOffender s.engine.b.toNat (s.engine.lanes s.engine.d.toNat) := by rw [hb, hcongr]
  have hcode : t.engine.packedCode = s.engine.packedCode := by
    rw [Engine.packedCode, Engine.packedCode, hcongr, Engine.interleave, Engine.interleave, h.spread_eq]
  cases hv : s.engine.valid with
  | false => exact ⟨_, _, _, _, exec_pack_of_not_valid n hv, exec_pack_of_not_valid n (hvalid.trans hv), nofun⟩
  | true =>
    have hvt := hvalid.trans hv
    by_cases hn : n.toNat = s.engine.d.toNat
    · have hnt : n.toNat = t.engine.d.toNat := hd ▸ hn
      cases hx : firstUnsignedOffender s.engine.b.toNat (s.engine.lanes s.engine.d.toNat) with
      | some x =>
        exact ⟨_, _, _, _, exec_pack_of_offender hv hn hx, exec_pack_of_offender hvt hnt (hscan.trans hx), nofun⟩
      | none =>
        have hpack := exec_pack_of_no_offender hvt hnt (hscan.trans hx)
        rw [hcode] at hpack
        exact ⟨_, _, _, _, exec_pack_of_no_offender hv hn hx, hpack, fun _ => ⟨rfl, rfl⟩⟩
    · have hpack := exec_pack_of_count_ne hvt (hd ▸ hn : n.toNat ≠ t.engine.d.toNat)
      rw [hd] at hpack
      exact ⟨_, _, _, _, exec_pack_of_count_ne hv hn, hpack, nofun⟩

/-- A command that writes the lanes `g` once there is a codec answers alike from two engines with the same
configuration. -/
theorem writeLanes_pure {s t : State} (h : SameConfig s.engine t.engine) (g : Nat → Data) :
    ∃ st x e f, whenConfigured s (respond 0 (s.engine.writeLanes g) s) = .next (s.answer e st x) ∧
      whenConfigured t (respond 0 (t.engine.writeLanes g) t) = .next (t.answer f st x) ∧
      (s.engine.valid = true → ∀ k : Fin 64, k.val < s.engine.d.toNat → f.lane k = e.lane k) := by
  obtain ⟨hvalid, hd, -⟩ := h
  cases hv : s.engine.valid with
  | false =>
    exact ⟨_, _, _, _, whenConfigured_of_not_valid _ hv, whenConfigured_of_not_valid _ (hvalid.trans hv), nofun⟩
  | true =>
    refine ⟨_, _, _, _, whenConfigured_of_valid _ hv, whenConfigured_of_valid _ (hvalid.trans hv), fun _ k hk => ?_⟩
    rw [Engine.lane_writeLanes, Engine.lane_writeLanes, hd, if_pos hk, if_pos hk]

/-- Settles O32: PACK by its cases, the two unpacking commands by the lanes they compute from C. -/
theorem packAndUnpackArePure : Obligations.PackAndUnpackArePure := by
  refine fun s t h => ⟨fun hlanes n => exec_pack_pure h hlanes n, fun hc i hi => ?_⟩
  obtain ⟨-, -, hb, -⟩ := id h
  have hcode := h.codeLane_eq hc
  obtain rfl | rfl := hi
  · rw [exec_unpack, exec_unpack, hcode]
    exact writeLanes_pure h _
  · rw [exec_sunpack, exec_sunpack, hcode, hb]
    exact writeLanes_pure h _

end Sys2Proof.Machine
end

section
/-! Runs of the host's inputs: steps one after another, the step of a request made for a command, and what the requests
leave alone that carry neither CFG nor a command that writes C. -/

namespace Sys2Proof.Machine

/-! ### Runs -/

/-- A run goes on from the state its first step answers. -/
theorem coreRun_succ {M : Host.Core} {s t : M.State} (k : Nat) (h : M.step s = .next t) :
    M.run (k + 1) s = M.run k t := by
  rw [Host.Core.run, h]

/-- A run goes on from the state its first k steps end in. -/
theorem coreRun_add {M : Host.Core} {k : Nat} {s t : M.State} (m : Nat) (h : M.run k s = .next t) :
    M.run (k + m) s = M.run m t := by
  induction k generalizing s with
  | zero =>
    obtain rfl := Host.Outcome.next.inj h
    rw [Nat.zero_add]
  | succ k ih =>
    rw [Host.Core.run] at h
    split at h
    case h_1 v hv => rw [Nat.succ_add, coreRun_succ _ hv, ih h]
    case h_2 | h_3 => cases h

theorem runs_zero (s : State) : Runs 0 s s := rfl

theorem runs_succ {k : Nat} {s t u : State} (h : step s = .next t) (hrun : Runs k t u) : Runs (k + 1) s u :=
  (coreRun_succ (M := Sys2Proof.core) k h).trans hrun

theorem runs_one {s t : State} (h : step s = .next t) : Runs 1 s t := runs_succ h (runs_zero t)

theorem runs_append {k m : Nat} {s t u : State} (h : Runs k s t) (hrun : Runs m t u) : Runs (k + m) s u :=
  (coreRun_add m h).trans hrun

/-! ### The step of a request for a command -/

/-- The operand bytes of a word decide what it decodes to, its opcode being one of the eleven. -/
theorem decode_commandWord (o : Opcode) (a b : Byte) : decode (commandWord o.byte a b) = decodeOperands o a b := by
  simp [decode, opcodeOf_byte]

theorem decode_encode_pack {n : Byte} (hn : n.toNat ≤ 64) : decode (encode (.pack n)) = .legal (.pack n) := by
  rw [encode, decode_commandWord, decodeOperands, formatA, if_neg (not_not_intro rfl), withCount, if_neg (by omega)]

theorem step_requestOf {s : State} {i : Instr} {x : Data} {rest : List Input}
    (hinputs : s.inputs = .request (requestOf i x) :: rest) (hlegal : decode (encode i) = .legal i) :
    step s = exec i (s.accept x rest) :=
  (step_of_request hinputs).trans (execWord_of_legal _ hlegal)

/-! ### Requests that keep the configuration and the code -/

/-- The two engines hold the same configuration and the same code: all that UNPACK reads. -/
def SameCode (e f : Engine) : Prop := SameConfig e f ∧ f.c = e.c

theorem SameCode.refl (e : Engine) : SameCode e e := ⟨⟨rfl, rfl, rfl, rfl, rfl, rfl, rfl⟩, rfl⟩

theorem SameCode.trans {e f g : Engine} (h : SameCode e f) (h' : SameCode f g) : SameCode e g := by
  obtain ⟨⟨hv, hd, hb, hn, hm, hl, hr⟩, hc⟩ := h
  obtain ⟨⟨hv', hd', hb', hn', hm', hl', hr'⟩, hc'⟩ := h'
  exact ⟨⟨hv'.trans hv, hd'.trans hd, hb'.trans hb, hn'.trans hn, hm'.trans hm, hl'.trans hl, hr'.trans hr⟩,
    hc'.trans hc⟩

theorem Engine.Configured.of_sameConfig {e f : Engine} {d b : Nat} (h : e.Configured d b) (hsame : SameConfig e f) :
    f.Configured d b := by
  obtain ⟨hv, hd, hb, hn, hm, hl, hr⟩ := hsame
  rwa [Engine.Configured, hv, hd, hb, hn, hm, hl, hr]

/-- The command ends with a response, and the engine has the configuration and the code it had. -/
def AnswersKeepingCode (r : Result) (s : State) : Prop :=
  ∃ e st x, r = .next (s.answer e st x) ∧ SameCode s.engine e

theorem answersKeepingCode_raise (st : Status) (x : Data) (s : State) : AnswersKeepingCode (raise st x s) s :=
  ⟨_, _, _, rfl, .refl _⟩

theorem answersKeepingCode_respond {s : State} {e : Engine} (x : Data) (h : SameCode s.engine e) :
    AnswersKeepingCode (respond x e s) s :=
  ⟨_, _, _, rfl, h⟩

theorem answersKeepingCode_whenConfigured {s : State} {k : Result} (h : AnswersKeepingCode k s) :
    AnswersKeepingCode (whenConfigured s k) s := by
  cases hv : s.engine.valid with
  | false => exact ⟨_, _, _, whenConfigured_of_not_valid k hv, .refl _⟩
  | true => rwa [whenConfigured_of_valid k hv]

/-- Writing lane registers changes neither the configuration nor the code. -/
theorem sameCode_writeLanes (e : Engine) (f : Nat → Data) : SameCode e (e.writeLanes f) :=
  ⟨⟨rfl, rfl, rfl, rfl, rfl, rfl, rfl⟩, rfl⟩

theorem sameCode_setLane (e : Engine) (i : Fin 64) (x : Data) : SameCode e (e.setLane i x) :=
  ⟨⟨rfl, rfl, rfl, rfl, rfl, rfl, rfl⟩, rfl⟩

theorem exec_answersKeepingCode {i : Instr} (h : keepsCode i = true) (s : State) : AnswersKeepingCode (exec i s) s := by
  cases i with
  | cfg | setc | pack | spack => exact absurd h Bool.false_ne_true
  | unpack | sunpack => exact answersKeepingCode_whenConfigured (answersKeepingCode_respond 0 (sameCode_writeLanes _ _))
  | setv k => exact answersKeepingCode_respond 0 (sameCode_setLane _ k _)
  | getv | getc | rdcfg => exact answersKeepingCode_respond _ (.refl _)
  | rdt sel j =>
    refine answersKeepingCode_whenConfigured ?_
    split
    · exact answersKeepingCode_raise _ _ _
    · exact answersKeepingCode_respond _ (.refl _)

/-- One step on an input that keeps the code. -/
theorem step_keepsCode {s : State} {m : Input} {rest : List Input} (hinputs : s.inputs = m :: rest)
    (hm : m.commandIs keepsCode = true) :
    ∃ t, step s = .next t ∧ t.inputs = rest ∧ SameCode s.engine t.engine := by
  cases m with
  | rst => exact absurd hm Bool.false_ne_true
  | request r =>
    have hanswer : AnswersKeepingCode (execWord r.cmd (s.accept r.wdata rest)) (s.accept r.wdata rest) := by
      cases hdecode : decode r.cmd with
      | legal i =>
        rw [Input.commandIs, hdecode] at hm
        rw [execWord_of_legal _ hdecode]
        exact exec_answersKeepingCode hm _
      | illegal why => exact ⟨_, _, _, execWord_of_illegal _ hdecode, .refl _⟩
    obtain ⟨e, st, x, hexec, hsame⟩ := hanswer
    exact ⟨_, (step_of_request hinputs).trans hexec, rfl, hsame⟩

/-- A run over inputs that keep the code. -/
theorem runs_keepsCode {mids rest : List Input} {s : State} (hinputs : s.inputs = mids ++ rest)
    (hmids : ∀ m ∈ mids, m.commandIs keepsCode = true) :
    ∃ t, Runs mids.length s t ∧ t.inputs = rest ∧ SameCode s.engine t.engine := by
  induction mids generalizing s with
  | nil => exact ⟨s, runs_zero s, hinputs, .refl _⟩
  | cons m mids ih =>
    obtain ⟨hm, hmids⟩ := List.forall_mem_cons.mp hmids
    obtain ⟨t, hstep, ht, hsame⟩ := step_keepsCode hinputs hm
    obtain ⟨u, hrun, hu, hsame'⟩ := ih ht hmids
    exact ⟨u, runs_succ hstep hrun, hu, hsame.trans hsame'⟩

/-- A run over a request for a command and then inputs that keep the code: it ends in the code the command left. -/
theorem runs_command_then_keepsCode {s : State} {i : Instr} {x y : Data} {mids rest : List Input} {e : Engine}
    {st : Status} (hinputs : s.inputs = .request (requestOf i x) :: (mids ++ rest)) (hlegal : decode (encode i) = .legal i)
    (hexec : exec i (s.accept x (mids ++ rest)) = .next ((s.accept x (mids ++ rest)).answer e st y))
    (hmids : ∀ m ∈ mids, m.commandIs keepsCode = true) :
    ∃ t, Runs (mids.length + 1) s t ∧ t.inputs = rest ∧ SameCode e t.engine := by
  have hstep := (step_requestOf hinputs hlegal).trans hexec
  obtain ⟨t, hrun, ht, hsame⟩ := runs_keepsCode
    (s := (s.accept x (mids ++ rest)).answer e st y) rfl hmids
  exact ⟨t, runs_succ hstep hrun, ht, hsame⟩

end Sys2Proof.Machine
end

section
/-! R107: UNPACK after PACK gives the lanes back, and PACK after UNPACK the code. -/

namespace Sys2Proof.Machine

/-- The lanes of the code of lanes in range are those lanes. -/
theorem Engine.Configured.codeLane_of_packedCode {e f : Engine} {d b : Nat} (h : e.Configured d b)
    (hf : f.Configured d b) (hc : f.c = e.packedCode) (hrange : e.LanesInRange d) {i : Fin 64} (hi : i.val < d) :
    f.codeLane i.val = e.lane i := by
  obtain ⟨⟨hd, -, -⟩, -, -, hb, -⟩ := id h
  refine BitVec.eq_of_getLsbD_eq fun k _ => ?_
  have hmod : i.val = (k * d + i.val) % d := by rw [Nat.mul_add_mod_self_right, Nat.mod_eq_of_lt hi]
  have hdiv : (k * d + i.val) / d = k := by
    rw [Nat.add_div_of_dvd_right (Nat.dvd_mul_left d k), Nat.mul_div_cancel k hd, Nat.div_eq_of_lt hi, Nat.add_zero]
  rw [hf.getLsbD_codeLane, hc, h.getLsbD_packedCode hmod, hdiv]
  by_cases hk : k < b
  · simp [hk]
  · have hpow : 2 ^ b ≤ 2 ^ k := Nat.pow_le_pow_right (by decide) (by omega)
    have hlane : (e.lane i).getLsbD k = false := Nat.testBit_lt_two_pow ((hb ▸ hrange i hi).trans_le hpow)
    rw [decide_eq_false hk, hlane, Bool.false_and]

/-- The code of the lanes that UNPACK leaves is C below bit B*D (R107). -/
theorem Engine.Configured.toNat_packedCode_writeLanes_codeLane {e : Engine} {d b : Nat} (h : e.Configured d b) :
    (e.writeLanes e.codeLane).packedCode.toNat = e.c.toNat % 2 ^ (b * d) := by
  have hwritten : (e.writeLanes e.codeLane).Configured d b := h
  obtain ⟨hlegal, -, hd, -⟩ := id h
  refine toNat_eq_mod_two_pow fun p => ?_
  have hi : p % d < d := Nat.mod_lt p hlegal.1
  rw [hwritten.getLsbD_packedCode (i := ⟨p % d, hi.trans_le hlegal.fst_le⟩) rfl, Engine.lane_writeLanes,
    if_pos (hd ▸ hi), h.getLsbD_codeLane, Nat.div_add_mod', ← Bool.and_assoc, Bool.and_self,
    decide_eq_decide.mpr (Nat.div_lt_iff_lt_mul hlegal.1)]

/-- Settles O50: what runs between PACK and UNPACK keeps the configuration and the code. -/
theorem packUnpackRoundTrip : Obligations.PackUnpackRoundTrip := by
  refine ⟨?packUnpack, ?unpackPack⟩
  case packUnpack =>
    intro s n x y mids rest d b h hn hrange hmids hinputs
    have hlegal := decode_encode_pack (hn ▸ h.1.fst_le : n.toNat ≤ 64)
    have hpack := exec_pack_of_inRange (s := s.accept x (mids ++ .request (requestOf .unpack y) :: rest)) h hn hrange
    obtain ⟨t, hrun, ht, hsame, hcode⟩ := runs_command_then_keepsCode hinputs hlegal hpack hmids
    have hconf : t.engine.Configured d b := h.of_sameConfig hsame
    obtain ⟨-, hv, hd, -⟩ := id hconf
    have hunpack := exec_unpack_of_valid (s := t.accept y rest) hv
    have hstep := (step_requestOf ht (by decide)).trans hunpack
    have hall := runs_append hrun (runs_one hstep)
    refine ⟨_, hall, rfl, fun i hi => ?_⟩
    rw [State.answer_engine, State.accept_engine, Engine.lane_writeLanes, hd, if_pos hi,
      h.codeLane_of_packedCode hconf hcode hrange hi]
  case unpackPack =>
    intro s n d b h hn
    obtain ⟨-, hv, -⟩ := id h
    exact ⟨_, _, exec_unpack_of_valid hv,
      exec_pack_of_inRange (s := s.answer (s.engine.writeLanes s.engine.codeLane) .ok 0) h hn
        h.lanesInRange_writeLanes_codeLane,
      h.toNat_packedCode_writeLanes_codeLane⟩

end Sys2Proof.Machine
end

section
/-! R116 and R118: the sign-magnitude mapping of a B-bit lane. A word below 2^B is 2^(B-1) times its sign bit plus its
magnitude; SignEnc writes the two and SignDec reads them. -/

namespace Sys2Proof.Machine

/-! ### A word as sign bit and magnitude -/

/-- The signed range of R117, as a bound on the magnitude. -/
theorem natAbs_lt_two_pow_iff {sv : Int} {k : Nat} :
    sv.natAbs < 2 ^ k ↔ -(2 ^ k : Int) < sv ∧ sv < (2 ^ k : Int) := by
  rw [← abs_lt, Int.abs_eq_natAbs, ← Nat.cast_lt (α := Int), Nat.cast_pow, Nat.cast_ofNat]

theorem toNat_eq_sign_add_magnitude {b : Nat} {u : Data} (hb : 1 ≤ b) (hu : u.toNat < 2 ^ b) :
    u.toNat = 2 ^ (b - 1) * (u.getLsbD (b - 1)).toNat + u.toNat % 2 ^ (b - 1) := by
  have hsplit : u.toNat % 2 ^ (b - 1 + 1) = u.toNat % 2 ^ (b - 1) + 2 ^ (b - 1) * (u.toNat / 2 ^ (b - 1) % 2) :=
    Nat.mod_pow_succ
  rw [Nat.sub_add_cancel hb, Nat.mod_eq_of_lt hu, ← Nat.toNat_testBit, Nat.add_comm] at hsplit
  exact hsplit

/-- A magnitude below 2^(B-1) fits a lane register as a non-negative number (R117). -/
theorem two_pow_pred_le {b : Nat} (hb : b ≤ 64) : 2 ^ (b - 1) ≤ 2 ^ 63 :=
  Nat.pow_le_pow_right (by decide) (by omega)

/-- A value whose magnitude is below 2^63 is the signed reading of its `tc64`. -/
theorem toInt_tc64 {v : Int} (h : v.natAbs < 2 ^ 63) : (tc64 v).toInt = v :=
  have hrange := natAbs_lt_two_pow_iff.mp h
  BitVec.toInt_ofInt_eq_self (by decide) hrange.1.le hrange.2

/-! ### SignEnc (R116) -/

theorem toNat_signEnc {b : Nat} {sv : Int} (hb : b ≤ 64) (h : sv.natAbs < 2 ^ (b - 1)) :
    (signEnc b sv).toNat = 2 ^ (b - 1) * (decide (sv < 0)).toNat + sv.natAbs := by
  have hhalf := two_pow_pred_le hb
  have hmag : (tc64 sv.natAbs).toNat = sv.natAbs := by
    rw [tc64, BitVec.ofInt_natCast, BitVec.toNat_ofNat, Nat.mod_eq_of_lt (by omega)]
  unfold signEnc
  split
  case isTrue hneg =>
    rw [← Int.ofNat_natAbs_of_nonpos hneg.le, toNat_or_shiftLeft hmag rfl h (by simp only [BitVec.toNat_ofNat]; omega),
      decide_eq_true hneg]
    rfl
  case isFalse hneg =>
    rw [← Int.natAbs_of_nonneg (not_lt.mp hneg), hmag, decide_eq_false (by omega), Int.natAbs_natCast]
    exact (Nat.zero_add _).symm

theorem toNat_signEnc_mod {b : Nat} {sv : Int} (hb : b ≤ 64) (h : sv.natAbs < 2 ^ (b - 1)) :
    (signEnc b sv).toNat % 2 ^ (b - 1) = sv.natAbs := by
  rw [toNat_signEnc hb h, Nat.mul_add_mod, Nat.mod_eq_of_lt h]

theorem getLsbD_signEnc {b : Nat} {sv : Int} (hb : b ≤ 64) (h : sv.natAbs < 2 ^ (b - 1)) :
    (signEnc b sv).getLsbD (b - 1) = decide (sv < 0) := by
  rw [← BitVec.testBit_toNat, toNat_signEnc hb h, Nat.testBit_two_pow_mul_add _ h, if_neg (lt_irrefl _), Nat.sub_self]
  cases decide (sv < 0) <;> rfl

theorem toNat_signEnc_lt {b : Nat} {sv : Int} (hb : 1 ≤ b) (hb64 : b ≤ 64) (h : sv.natAbs < 2 ^ (b - 1)) :
    (signEnc b sv).toNat < 2 ^ b := by
  have hdouble := Nat.two_pow_pred_add_two_pow_pred hb
  rw [toNat_signEnc hb64 h]
  cases decide (sv < 0) <;> simp only [Bool.toNat_false, Bool.toNat_true] <;> omega

/-- There is no negative zero: a value with the sign bit set has a magnitude. -/
theorem toNat_signEnc_ne {b : Nat} {sv : Int} (hb : b ≤ 64) (h : sv.natAbs < 2 ^ (b - 1)) :
    (signEnc b sv).toNat ≠ 2 ^ (b - 1) := by
  rw [toNat_signEnc hb h]
  by_cases hneg : sv < 0
  · rw [decide_eq_true hneg, Bool.toNat_true]
    omega
  · rw [decide_eq_false hneg, Bool.toNat_false]
    omega

theorem signEnc_zero (b : Nat) : signEnc b 0 = 0 := by
  rw [signEnc, if_neg (lt_irrefl _)]
  rfl

/-- Settles O33: the value of SignEnc, read as sign bit and magnitude. -/
theorem signEncIsSignMagnitude : Obligations.SignEncIsSignMagnitude := by
  intro b sv hb hb64 hlow hhigh
  have h : sv.natAbs < 2 ^ (b - 1) := natAbs_lt_two_pow_iff.mpr ⟨hlow, hhigh⟩
  refine ⟨toNat_signEnc_lt hb hb64 h, toNat_signEnc_mod hb64 h, getLsbD_signEnc hb64 h, toNat_signEnc_ne hb64 h,
    signEnc_zero b, ?oneBit, ?magnitude⟩
  case oneBit =>
    rintro rfl
    exact Int.natAbs_eq_zero.mp (Nat.lt_one_iff.mp h)
  case magnitude => exact Nat.le_sub_one_of_lt (h.trans_le (two_pow_pred_le hb64))

/-! ### SignDec (R118) -/

/-- The number that the B-bit pattern u stands for: the magnitude u mod 2^(B-1), negated if bit B-1 is set (R118). -/
def signedValue (b : Nat) (u : Data) : Int :=
  if u.getLsbD (b - 1) then -((u.toNat % 2 ^ (b - 1) : Nat) : Int) else ((u.toNat % 2 ^ (b - 1) : Nat) : Int)

theorem signDec_eq_tc64 (b : Nat) (u : Data) : signDec b u = tc64 (signedValue b u) := by
  unfold signDec signedValue
  split
  · rfl
  · exact (BitVec.ofInt_natCast 64 _).symm

theorem natAbs_signedValue (b : Nat) (u : Data) : (signedValue b u).natAbs = u.toNat % 2 ^ (b - 1) := by
  unfold signedValue
  split <;> omega

theorem natAbs_signedValue_lt (b : Nat) (u : Data) : (signedValue b u).natAbs < 2 ^ (b - 1) :=
  natAbs_signedValue b u ▸ Nat.mod_lt _ (Nat.two_pow_pos _)

theorem toInt_signDec {b : Nat} (hb : b ≤ 64) (u : Data) : (signDec b u).toInt = signedValue b u := by
  rw [signDec_eq_tc64, toInt_tc64 ((natAbs_signedValue_lt b u).trans_le (two_pow_pred_le hb))]

/-- SignEnc's pattern stands for the value it was given. -/
theorem signedValue_signEnc {b : Nat} {sv : Int} (hb : b ≤ 64) (h : sv.natAbs < 2 ^ (b - 1)) :
    signedValue b (signEnc b sv) = sv := by
  rw [signedValue, getLsbD_signEnc hb h, toNat_signEnc_mod hb h]
  by_cases hneg : sv < 0
  · rw [decide_eq_true hneg, if_pos rfl]
    omega
  · rw [decide_eq_false hneg, if_neg Bool.false_ne_true]
    omega

theorem signDec_signEnc {b : Nat} {sv : Int} (hb : b ≤ 64) (h : sv.natAbs < 2 ^ (b - 1)) :
    signDec b (signEnc b sv) = tc64 sv := by
  rw [signDec_eq_tc64, signedValue_signEnc hb h]

/-- The pattern with the sign bit set and magnitude 0 stands for 0 too. -/
theorem signedValue_of_eq_two_pow {b : Nat} {u : Data} (hu : u.toNat = 2 ^ (b - 1)) : signedValue b u = 0 := by
  rw [← Int.natAbs_eq_zero, natAbs_signedValue, hu, Nat.mod_self]

/-- Apart from that pattern, the sign bit says whether the number is negative. -/
theorem signedValue_neg_iff {b : Nat} {u : Data} (hb : 1 ≤ b) (hu : u.toNat < 2 ^ b) (hne : u.toNat ≠ 2 ^ (b - 1)) :
    decide (signedValue b u < 0) = u.getLsbD (b - 1) := by
  cases hsign : u.getLsbD (b - 1) with
  | false =>
    rw [signedValue, hsign, if_neg Bool.false_ne_true, decide_eq_false_iff_not]
    omega
  | true =>
    have hvalue := toNat_eq_sign_add_magnitude hb hu
    rw [hsign, Bool.toNat_true] at hvalue
    rw [signedValue, hsign, if_pos rfl, decide_eq_true_iff]
    omega

theorem signEnc_signDec {b : Nat} {u : Data} (hb : 1 ≤ b) (hb64 : b ≤ 64) (hu : u.toNat < 2 ^ b)
    (hne : u.toNat ≠ 2 ^ (b - 1)) : signEnc b (signDec b u).toInt = u := by
  apply BitVec.eq_of_toNat_eq
  rw [toInt_signDec hb64, toNat_signEnc hb64 (natAbs_signedValue_lt b u), signedValue_neg_iff hb hu hne,
    natAbs_signedValue, ← toNat_eq_sign_add_magnitude hb hu]

/-- The negative zero comes back as the one zero that SignEnc writes. -/
theorem signEnc_signDec_of_eq_two_pow {b : Nat} {u : Data} (hb : b ≤ 64) (hu : u.toNat = 2 ^ (b - 1)) :
    signEnc b (signDec b u).toInt = 0 := by
  rw [toInt_signDec hb, signedValue_of_eq_two_pow hu, signEnc_zero]

/-- Settles O35: SignDec gives the number that a pattern stands for. -/
theorem signDecInvertsSignEnc : Obligations.SignDecInvertsSignEnc := by
  intro b hb hb64
  refine ⟨fun sv hlow hhigh => signDec_signEnc hb64 (natAbs_lt_two_pow_iff.mpr ⟨hlow, hhigh⟩), fun u hu => ?_⟩
  obtain ⟨hlow, hhigh⟩ := natAbs_lt_two_pow_iff.mp (natAbs_signedValue_lt b u)
  have hvalue := toInt_signDec hb64 u
  refine ⟨hvalue, hvalue ▸ hlow, hvalue ▸ hhigh, fun hzero => ?_, signEnc_signDec hb hb64 hu⟩
  rw [signDec_eq_tc64, signedValue_of_eq_two_pow hzero]
  rfl

end Sys2Proof.Machine
end

section
/-! R119 to R124: SPACK is PACK of an engine whose lane registers hold the encodings, and SUNPACK decodes the lanes that
UNPACK would leave. -/

namespace Sys2Proof.Machine

/-! ### The lane registers holding their encodings (R124) -/

/-- The engine with SignEnc of every lane register in its place. -/
def Engine.signEncoded (e : Engine) : Engine := { e with v := e.v.map fun y : Data => signEnc e.b.toNat y.toInt }

theorem Engine.lane_signEncoded (e : Engine) (k : Fin 64) :
    e.signEncoded.lane k = signEnc e.b.toNat (e.lane k).toInt := by
  simp [Engine.signEncoded, Engine.lane_eq]

theorem Engine.lanes_signEncoded (e : Engine) (n : Nat) :
    e.signEncoded.lanes n = (e.lanes n).map (signEncLane e.b.toNat) := by
  rw [Engine.lanes, Engine.signEncoded, Vector.toList_map, ← List.map_take]
  rfl

theorem Engine.Configured.signEncoded {e : Engine} {d b : Nat} (h : e.Configured d b) : e.signEncoded.Configured d b := h

/-- The code of the encodings is the one that SPACK interleaves (R119). -/
theorem Engine.packedCode_signEncoded (e : Engine) :
    e.signEncoded.packedCode = e.interleave ((e.lanes e.d.toNat).map (signEncLane e.b.toNat)) := by
  rw [Engine.packedCode, Engine.lanes_signEncoded]
  rfl

theorem Engine.LanesInSignedRange.natAbs_lt {e : Engine} {n : Nat} (h : e.LanesInSignedRange n) {k : Fin 64}
    (hk : k.val < n) : (e.lane k).toInt.natAbs < 2 ^ (e.b.toNat - 1) :=
  natAbs_lt_two_pow_iff.mpr (h k hk)

/-- Encodings of lanes in the signed range are in PACK's range (R116). -/
theorem Engine.Configured.lanesInRange_signEncoded {e : Engine} {d b n : Nat} (h : e.Configured d b)
    (hrange : e.LanesInSignedRange n) : e.signEncoded.LanesInRange n := by
  obtain ⟨hlegal, -, -, rfl, -⟩ := h
  intro k hk
  rw [Engine.lane_signEncoded]
  exact toNat_signEnc_lt hlegal.2.1 hlegal.snd_le (hrange.natAbs_lt hk)

/-! ### The ends of an SPACK with its inputs in range, in the order of R120 -/

theorem exec_spack_of_not_valid {s : State} (n : Byte) (hv : s.engine.valid = false) :
    exec (.spack n) s = .next (s.answer s.engine .notConfigured 0) :=
  whenConfigured_of_not_valid _ hv

/-- The scan of R120 finds nothing when the lanes are in the signed range. -/
theorem firstSignedOffender_lanes_none {e : Engine} {n : Nat} (h : e.LanesInSignedRange n) :
    firstSignedOffender e.b.toNat (e.lanes n) = none := by
  refine firstSignedOffender_none.mpr fun x hx => ?_
  obtain ⟨k, hk, rfl⟩ := Engine.mem_lanes.mp hx
  exact h k hk

theorem exec_spack_of_count_ne {s : State} {n : Byte} (hv : s.engine.valid = true)
    (hrange : s.engine.LanesInSignedRange n.toNat) (hn : n.toNat ≠ s.engine.d.toNat) :
    exec (.spack n) s =
      .next (s.answer s.engine .dimensionMismatch (infoWord (s.engine.d.setWidth 64) (n.setWidth 64))) := by
  change execSpack n s = _
  rw [execSpack, whenConfigured_of_valid _ hv, firstSignedOffender_lanes_none hrange]
  exact if_pos hn

/-- SPACK with the right count and every lane in range writes the code of the encodings (R119). -/
theorem exec_spack_of_inRange {s : State} {n : Byte} {d b : Nat} (h : s.engine.Configured d b) (hn : n.toNat = d)
    (hrange : s.engine.LanesInSignedRange d) :
    exec (.spack n) s = .next (s.answer (s.engine.setCode s.engine.signEncoded.packedCode) .ok
      s.engine.signEncoded.packedCode) := by
  obtain ⟨-, hv, hd, -⟩ := h
  change execSpack n s = _
  rw [execSpack, whenConfigured_of_valid _ hv, hn, firstSignedOffender_lanes_none hrange,
    Engine.packedCode_signEncoded, hd]
  exact if_neg (not_not_intro rfl)

/-! ### The end of an SUNPACK that succeeds -/

/-- The engine after SUNPACK (R121). -/
def Engine.sunpacked (e : Engine) : Engine := e.writeLanes fun i => signDec e.b.toNat (e.codeLane i)

theorem Engine.lane_sunpacked {e : Engine} {i : Fin 64} (hi : i.val < e.d.toNat) :
    e.sunpacked.lane i = signDec e.b.toNat (e.codeLane i.val) := by
  rw [Engine.sunpacked, Engine.lane_writeLanes, if_pos hi]

theorem exec_sunpack_of_valid {s : State} (hv : s.engine.valid = true) :
    exec .sunpack s = .next (s.answer s.engine.sunpacked .ok 0) := by
  rw [exec_sunpack, whenConfigured_of_valid _ hv, respond_next, Engine.sunpacked]

/-! ### SPACK and SUNPACK through PACK and UNPACK (R124) -/

/-- SPACK with its inputs in range and PACK of the encodings give the same response and the same code, whatever the count
and whether there is a codec. -/
theorem exec_spack_eq_pack_signEncoded {s : State} {n : Byte} (h : s.engine.Inv)
    (hrange : s.engine.LanesInSignedRange n.toNat) :
    ∃ st x e f, exec (.spack n) s = .next (s.answer e st x) ∧
      exec (.pack n) { s with engine := s.engine.signEncoded } =
        .next ({ s with engine := s.engine.signEncoded }.answer f st x) ∧ e.c = f.c := by
  cases hv : s.engine.valid with
  | false =>
    exact ⟨_, _, _, _, exec_spack_of_not_valid n hv,
      exec_pack_of_not_valid (s := { s with engine := s.engine.signEncoded }) n hv, rfl⟩
  | true =>
    have hconf := h.configured hv
    by_cases hn : n.toNat = s.engine.d.toNat
    · rw [hn] at hrange
      exact ⟨_, _, _, _, exec_spack_of_inRange hconf hn hrange,
        exec_pack_of_inRange (s := { s with engine := s.engine.signEncoded }) hconf.signEncoded hn
          (hconf.lanesInRange_signEncoded hrange), rfl⟩
    · exact ⟨_, _, _, _, exec_spack_of_count_ne hv hrange hn,
        exec_pack_of_count_ne (s := { s with engine := s.engine.signEncoded }) hv hn, rfl⟩

/-- The lanes of the code that SPACK writes are the encodings. -/
theorem Engine.Configured.codeLane_of_signEncoded {e f : Engine} {d b : Nat} (h : e.Configured d b)
    (hf : f.Configured d b) (hc : f.c = e.signEncoded.packedCode) (hrange : e.LanesInSignedRange d) {i : Fin 64}
    (hi : i.val < d) : f.codeLane i.val = signEnc b (e.lane i).toInt := by
  obtain ⟨-, -, -, hb, -⟩ := id h
  rw [h.signEncoded.codeLane_of_packedCode hf hc (h.lanesInRange_signEncoded hrange) hi, Engine.lane_signEncoded, hb]

/-- Settles O38: SPACK by its cases, SUNPACK by the lanes it writes, the example by the encoding of -3. -/
theorem signedCommandsViaUnsigned : Obligations.SignedCommandsViaUnsigned := by
  refine ⟨fun s n h hrange => exec_spack_eq_pack_signEncoded h hrange, ?sunpack, ?minusThree⟩
  case sunpack =>
    intro s hv
    refine ⟨_, _, exec_unpack_of_valid hv, exec_sunpack_of_valid hv, fun i hi => ?_⟩
    rw [Engine.lane_sunpacked hi, Engine.lane_writeLanes, if_pos hi]
  case minusThree =>
    intro s n d i h hn hrange hi hlane
    obtain ⟨-, hv, hd, -⟩ := id h
    have hcode := h.codeLane_of_signEncoded (f := s.engine.setCode s.engine.signEncoded.packedCode) h rfl hrange hi
    refine ⟨_, _, exec_spack_of_inRange h hn hrange, exec_unpack_of_valid hv, ?_⟩
    rw [State.answer_engine, State.answer_engine, Engine.lane_writeLanes, Engine.setCode_d, hd, if_pos hi, hcode, hlane]
    decide

end Sys2Proof.Machine
end

section
/-! R123: SUNPACK after SPACK gives the signed lanes back, and SPACK after SUNPACK the code, a negative zero apart. -/

namespace Sys2Proof.Machine

theorem decode_encode_spack {n : Byte} (hn : n.toNat ≤ 64) : decode (encode (.spack n)) = .legal (.spack n) := by
  rw [encode, decode_commandWord, decodeOperands, formatA, if_neg (not_not_intro rfl), withCount, if_neg (by omega)]

/-! ### The bits of a code, lane by lane (R103) -/

theorem Engine.Configured.getLsbD_packedCode_mul_add {e : Engine} {d b : Nat} (h : e.Configured d b) {i : Fin 64}
    {k : Nat} (hi : i.val < d) (hk : k < b) : e.packedCode.getLsbD (k * d + i.val) = (e.lane i).getLsbD k := by
  have hmod : (k * d + i.val) % d = i.val := by rw [Nat.mul_add_mod_self_right, Nat.mod_eq_of_lt hi]
  have hdiv : (k * d + i.val) / d = k := by
    rw [Nat.mul_comm, Nat.mul_add_div h.1.1, Nat.div_eq_of_lt hi, Nat.add_zero]
  rw [h.getLsbD_packedCode hmod.symm, hdiv, decide_eq_true hk, Bool.true_and]

theorem Engine.Configured.getLsbD_packedCode_of_le {e : Engine} {d b p : Nat} (h : e.Configured d b) (hp : b * d ≤ p) :
    e.packedCode.getLsbD p = false := by
  obtain ⟨hd, -, -⟩ := h.1
  have hi : p % d < 64 := (Nat.mod_lt p hd).trans_le h.1.fst_le
  have hdiv : ¬ p / d < b := by rw [Nat.div_lt_iff_lt_mul hd]; omega
  rw [h.getLsbD_packedCode (i := ⟨p % d, hi⟩) rfl, decide_eq_false hdiv, Bool.false_and]

/-! ### SUNPACK after SPACK -/

/-- The code that SPACK writes decodes to the lanes it was made from. -/
theorem Engine.Configured.signDec_codeLane_of_signEncoded {e f : Engine} {d b : Nat} (h : e.Configured d b)
    (hf : f.Configured d b) (hc : f.c = e.signEncoded.packedCode) (hrange : e.LanesInSignedRange d) {i : Fin 64}
    (hi : i.val < d) : signDec b (f.codeLane i.val) = e.lane i := by
  obtain ⟨hlegal, -, -, rfl, -⟩ := id h
  rw [h.codeLane_of_signEncoded hf hc hrange hi, signDec_signEnc hlegal.snd_le (hrange.natAbs_lt hi)]
  exact BitVec.ofInt_toInt

/-! ### SPACK after SUNPACK -/

theorem Engine.Configured.sunpacked {e : Engine} {d b : Nat} (h : e.Configured d b) : e.sunpacked.Configured d b := h

theorem Engine.Configured.lane_sunpacked {e : Engine} {d b : Nat} (h : e.Configured d b) {i : Fin 64} (hi : i.val < d) :
    e.sunpacked.lane i = signDec b (e.codeLane i.val) := by
  obtain ⟨-, -, rfl, rfl, -⟩ := h
  exact Engine.lane_sunpacked hi

/-- Every lane that SUNPACK writes is in SPACK's range (R118). -/
theorem Engine.Configured.lanesInSignedRange_sunpacked {e : Engine} {d b : Nat} (h : e.Configured d b) :
    e.sunpacked.LanesInSignedRange d := by
  intro i hi
  obtain ⟨hlegal, -, -, hb, -⟩ := id h.sunpacked
  rw [h.lane_sunpacked hi, hb, toInt_signDec hlegal.snd_le]
  exact natAbs_lt_two_pow_iff.mp (natAbs_signedValue_lt b _)

/-- A lane of the code has no bit at or above bit B. -/
theorem Engine.Configured.toNat_codeLane_lt {e : Engine} {d b : Nat} (h : e.Configured d b) (i : Nat) :
    (e.codeLane i).toNat < 2 ^ b :=
  Nat.lt_pow_two_of_testBit _ fun k hk => by
    rw [BitVec.testBit_toNat, h.getLsbD_codeLane, decide_eq_false (Nat.not_lt.mpr hk), Bool.false_and]

/-- Lane i of the code is the negative zero: of its B bits the top one alone is set. -/
theorem Engine.Configured.toNat_codeLane_eq_two_pow_iff {e : Engine} {d b : Nat} (h : e.Configured d b) (i : Nat) :
    (e.codeLane i).toNat = 2 ^ (b - 1) ↔
      ((List.range b).all fun q => e.c.getLsbD (q * d + i) == decide (q = b - 1)) = true := by
  obtain ⟨⟨-, hb, -⟩, -⟩ := id h
  simp only [List.all_eq_true, List.mem_range, beq_iff_eq]
  constructor
  case mp =>
    intro heq q hq
    have hbit := h.getLsbD_codeLane i q
    rw [← BitVec.testBit_toNat, heq, Nat.testBit_two_pow, decide_eq_true hq, Bool.true_and] at hbit
    rw [← hbit, decide_eq_decide]
    exact eq_comm
  case mpr =>
    intro hall
    refine Nat.eq_of_testBit_eq fun q => ?_
    rw [BitVec.testBit_toNat, h.getLsbD_codeLane, Nat.testBit_two_pow]
    by_cases hq : q < b
    · rw [decide_eq_true hq, hall q hq, Bool.true_and, decide_eq_decide]
      exact eq_comm
    · rw [decide_eq_false hq, Bool.false_and, decide_eq_false (by omega)]

/-- Encoding what SUNPACK wrote gives the lane of the code back, a negative zero as 0 (R123). -/
theorem Engine.Configured.getLsbD_signEnc_sunpacked {e : Engine} {d b : Nat} (h : e.Configured d b) {i : Fin 64}
    (hi : i.val < d) {k : Nat} (hk : k < b) :
    (e.sunpacked.signEncoded.lane i).getLsbD k = (e.c.getLsbD (k * d + i.val) &&
      !((List.range b).all fun q => e.c.getLsbD (q * d + i.val) == decide (q = b - 1))) := by
  obtain ⟨⟨-, hb1, -⟩, -, -, hb, -⟩ := id h.sunpacked
  have hb64 : b ≤ 64 := h.1.snd_le
  have hzero := h.toNat_codeLane_eq_two_pow_iff i.val
  rw [Engine.lane_signEncoded, h.lane_sunpacked hi, hb]
  by_cases hneg : (e.codeLane i.val).toNat = 2 ^ (b - 1)
  · rw [signEnc_signDec_of_eq_two_pow hb64 hneg, hzero.mp hneg]
    simp
  · rw [signEnc_signDec hb1 hb64 (h.toNat_codeLane_lt i.val) hneg, h.getLsbD_codeLane, decide_eq_true hk,
      Bool.true_and, Bool.eq_false_iff.mpr (mt hzero.mpr hneg), Bool.not_false, Bool.and_true]

/-- Settles O51: what runs between SPACK and SUNPACK keeps the configuration and the code. -/
theorem spackSunpackRoundTrip : Obligations.SpackSunpackRoundTrip := by
  refine ⟨?spackSunpack, ?sunpackSpack⟩
  case spackSunpack =>
    intro s n x y mids rest d b h hn hrange hmids hinputs
    have hlegal := decode_encode_spack (hn ▸ h.1.fst_le : n.toNat ≤ 64)
    have hspack := exec_spack_of_inRange (s := s.accept x (mids ++ .request (requestOf .sunpack y) :: rest)) h hn hrange
    obtain ⟨t, hrun, ht, hsame, hcode⟩ := runs_command_then_keepsCode hinputs hlegal hspack hmids
    have hconf : t.engine.Configured d b := h.of_sameConfig hsame
    obtain ⟨-, hv, -⟩ := id hconf
    have hsunpack := exec_sunpack_of_valid (s := t.accept y rest) hv
    have hstep := (step_requestOf ht (by decide)).trans hsunpack
    have hall := runs_append hrun (runs_one hstep)
    refine ⟨_, hall, rfl, fun i hi => ?_⟩
    exact (hconf.lane_sunpacked hi).trans (h.signDec_codeLane_of_signEncoded hconf hcode hrange hi)
  case sunpackSpack =>
    intro s n d b h hn
    obtain ⟨-, hv, -⟩ := id h
    have hwritten := h.sunpacked.signEncoded
    refine ⟨_, _, exec_sunpack_of_valid hv,
      exec_spack_of_inRange (s := s.answer s.engine.sunpacked .ok 0) h.sunpacked hn h.lanesInSignedRange_sunpacked,
      fun p hp => hwritten.getLsbD_packedCode_of_le hp, fun i k hi hk => ?_⟩
    have hlane : i < 64 := hi.trans_le h.1.fst_le
    exact (hwritten.getLsbD_packedCode_mul_add (i := ⟨i, hlane⟩) hi hk).trans (h.getLsbD_signEnc_sunpacked hi hk)

end Sys2Proof.Machine
end

section
/-! R20 and R134: which registers each command may write, what a register therefore keeps over a run of commands that do
not write it, and what a store and a later read of one register return. -/

namespace Sys2Proof.Machine

/-! ### The writers of R20 -/

/-- The command may write its own registers of `e`, and no others, to leave `f` (R20). -/
def Instr.Writes (e f : Engine) : Instr → Prop
  | .cfg d b => f = e.configure d b
  | .pack _ | .spack _ | .setc => ∃ c, f = e.setCode c
  | .unpack | .sunpack => ∃ g, f = e.writeLanes g
  | .setv k => ∃ x, f = e.setLane k x
  | .getv _ | .getc | .rdcfg | .rdt _ _ => False

/-- The command `i` ends with a response, the engine being as before or with writes that are `i`'s to make. -/
def AnswersAs (i : Instr) (r : Result) (s : State) : Prop :=
  ∃ e st x, r = .next (s.answer e st x) ∧ (e = s.engine ∨ Instr.Writes s.engine e i)

theorem answersAs_raise (i : Instr) (st : Status) (x : Data) (s : State) : AnswersAs i (raise st x s) s :=
  ⟨_, _, _, raise_next st x s, .inl rfl⟩

theorem answersAs_respond_same (i : Instr) (x : Data) (s : State) : AnswersAs i (respond x s.engine s) s :=
  ⟨_, _, _, respond_next x s.engine s, .inl rfl⟩

theorem answersAs_respond {i : Instr} {s : State} {e : Engine} (x : Data) (h : Instr.Writes s.engine e i) :
    AnswersAs i (respond x e s) s :=
  ⟨_, _, _, respond_next x e s, .inr h⟩

theorem answersAs_whenConfigured {i : Instr} {s : State} {k : Result} (h : AnswersAs i k s) :
    AnswersAs i (whenConfigured s k) s := by
  cases hv : s.engine.valid with
  | false => exact ⟨_, _, _, whenConfigured_of_not_valid k hv, .inl rfl⟩
  | true => rwa [whenConfigured_of_valid k hv]

/-- Every command, in every state, answers and writes at most its own registers (R20, R156). -/
theorem exec_answersAs (i : Instr) (s : State) : AnswersAs i (exec i s) s := by
  cases i with
  | cfg d b =>
    by_cases hlegal : LegalPair d.toNat b.toNat
    · exact ⟨_, _, _, exec_cfg_of_legal s hlegal, .inr rfl⟩
    · exact ⟨_, _, _, exec_cfg_of_not_legal s hlegal, .inl rfl⟩
  | pack | spack =>
    refine answersAs_whenConfigured ?_
    split
    · exact answersAs_raise _ _ _ _
    · split
      · exact answersAs_raise _ _ _ _
      · exact answersAs_respond _ ⟨_, rfl⟩
  | unpack | sunpack => exact answersAs_whenConfigured (answersAs_respond _ ⟨_, rfl⟩)
  | setv | setc => exact answersAs_respond _ ⟨_, rfl⟩
  | getv | getc | rdcfg => exact answersAs_respond_same _ _ _
  | rdt sel j =>
    refine answersAs_whenConfigured ?_
    split
    · exact answersAs_raise _ _ _ _
    · exact answersAs_respond_same _ _ _

/-! ### What a register keeps -/

/-- A command satisfying `p` never writes the register that `reg` reads. -/
def Untouched (p : Instr → Bool) (reg : Engine → Data) : Prop :=
  ∀ (i : Instr) (e f : Engine), p i = true → Instr.Writes e f i → reg f = reg e

/-- V[k] is written by SETV k, UNPACK and SUNPACK only. -/
theorem untouched_lane (k : Fin 64) : Untouched (keepsLane k) (·.lane k) := by
  intro i e f hp hwrites
  cases i with
  | cfg => subst hwrites; rfl
  | pack | spack | setc => obtain ⟨c, rfl⟩ := hwrites; rfl
  | unpack | sunpack => exact absurd hp Bool.false_ne_true
  | setv j =>
    obtain ⟨x, rfl⟩ := hwrites
    exact (Engine.lane_setLane e j k x).trans (if_neg (of_decide_eq_true hp))
  | getv | getc | rdcfg | rdt => exact hwrites.elim

/-- C is written by SETC, PACK and SPACK only. -/
theorem untouched_code : Untouched writesNoCode (·.c) := by
  intro i e f hp hwrites
  cases i with
  | cfg => subst hwrites; rfl
  | pack | spack | setc => exact absurd hp Bool.false_ne_true
  | unpack | sunpack => obtain ⟨g, rfl⟩ := hwrites; rfl
  | setv => obtain ⟨x, rfl⟩ := hwrites; rfl
  | getv | getc | rdcfg | rdt => exact hwrites.elim

/-- One step on a request that does not write the register. -/
theorem step_untouched {p : Instr → Bool} {reg : Engine → Data} (hreg : Untouched p reg) {s : State} {m : Input}
    {rest : List Input} (hinputs : s.inputs = m :: rest) (hm : m.commandIs p = true) :
    ∃ t, step s = .next t ∧ t.inputs = rest ∧ reg t.engine = reg s.engine := by
  cases m with
  | rst => exact absurd hm Bool.false_ne_true
  | request r =>
    have hstep := step_of_request hinputs
    cases hdecode : decode r.cmd with
    | illegal why => exact ⟨_, hstep.trans (execWord_of_illegal _ hdecode), rfl, rfl⟩
    | legal i =>
      rw [Input.commandIs, hdecode] at hm
      obtain ⟨e, st, x, hexec, hengine⟩ := exec_answersAs i (s.accept r.wdata rest)
      refine ⟨_, hstep.trans ((execWord_of_legal _ hdecode).trans hexec), rfl, ?_⟩
      obtain rfl | hwrites := hengine
      · rfl
      · exact hreg i _ _ hm hwrites

/-- A run over requests that do not write the register. -/
theorem runs_untouched {p : Instr → Bool} {reg : Engine → Data} (hreg : Untouched p reg) {mids rest : List Input}
    {s : State} (hinputs : s.inputs = mids ++ rest) (hmids : ∀ m ∈ mids, m.commandIs p = true) :
    ∃ t, Runs mids.length s t ∧ t.inputs = rest ∧ reg t.engine = reg s.engine := by
  induction mids generalizing s with
  | nil => exact ⟨s, runs_zero s, hinputs, rfl⟩
  | cons m mids ih =>
    obtain ⟨hm, hmids⟩ := List.forall_mem_cons.mp hmids
    obtain ⟨t, hstep, ht, hsame⟩ := step_untouched hreg hinputs hm
    obtain ⟨u, hrun, hu, hsame'⟩ := ih ht hmids
    exact ⟨u, runs_succ hstep hrun, hu, hsame'.trans hsame⟩

/-! ### The transfers -/

theorem decode_encode_setv (k : Fin 64) : decode (encode (.setv k)) = .legal (.setv k) := by
  simp [encode, decode_commandWord, decodeOperands, formatA, withLane]

theorem decode_encode_getv (k : Fin 64) : decode (encode (.getv k)) = .legal (.getv k) := by
  simp [encode, decode_commandWord, decodeOperands, formatA, withLane]

theorem exec_setv (k : Fin 64) (s : State) :
    exec (.setv k) s = .next (s.answer (s.engine.setLane k s.wdata) .ok 0) := rfl

theorem exec_getv (k : Fin 64) (s : State) : exec (.getv k) s = .next (s.answer s.engine .ok (s.engine.lane k)) := rfl

theorem exec_setc (s : State) : exec .setc s = .next (s.answer (s.engine.setCode s.wdata) .ok 0) := rfl

theorem exec_getc (s : State) : exec .getc s = .next (s.answer s.engine .ok s.engine.c) := rfl

theorem sameConfig_setCode (e : Engine) (x : Data) : SameConfig e (e.setCode x) := ⟨rfl, rfl, rfl, rfl, rfl, rfl, rfl⟩

/-- R134 for one register: `store` writes WDATA to it, nothing between writes it, and `read` returns the data stored. -/
theorem runs_store_then_read {p : Instr → Bool} {reg : Engine → Data} (hreg : Untouched p reg) {store read : Instr}
    {write : Engine → Data → Engine} (hwrite : ∀ e x, reg (write e x) = x)
    (hstoreWord : decode (encode store) = .legal store) (hreadWord : decode (encode read) = .legal read)
    (hstore : ∀ s, exec store s = .next (s.answer (write s.engine s.wdata) .ok 0))
    (hread : ∀ s, exec read s = .next (s.answer s.engine .ok (reg s.engine)))
    {x y : Data} {mids rest : List Input} {s : State} (hmids : ∀ m ∈ mids, m.commandIs p = true)
    (hinputs : s.inputs = .request (requestOf store x) :: (mids ++ .request (requestOf read y) :: rest)) :
    ∃ t, Runs (mids.length + 2) s t ∧ t.responses.getLast? = some ⟨.ok, x⟩ := by
  have hfirst := (step_requestOf hinputs hstoreWord).trans (hstore _)
  obtain ⟨t, hrun, ht, hsame⟩ := runs_untouched hreg
    (s := (s.accept x (mids ++ .request (requestOf read y) :: rest)).answer (write s.engine x) .ok 0) rfl hmids
  have hkept : reg t.engine = x := hsame.trans (hwrite s.engine x)
  have hlast := (step_requestOf ht hreadWord).trans (hread _)
  refine ⟨_, runs_succ hfirst (runs_append hrun (runs_one hlast)), ?_⟩
  rw [State.answer_responses, List.getLast?_concat, State.accept_engine, hkept]

/-- Settles O42: a register keeps what is stored in it over commands that do not write it (R134 (a), (b)); each transfer
is a response with status OK (c); the two ends of a CFG leave V and C (d). -/
theorem transfersPersist : Obligations.TransfersPersist := by
  refine ⟨?lane, ?code, ?transfers, ?cfg⟩
  case lane =>
    intro k x y mids rest s hmids hinputs
    have hwrite (e : Engine) (x : Data) : (e.setLane k x).lane k = x := by rw [Engine.lane_setLane, if_pos rfl]
    exact runs_store_then_read (untouched_lane k) (write := (·.setLane k ·)) hwrite (decode_encode_setv k)
      (decode_encode_getv k) (exec_setv k) (exec_getv k) hmids hinputs
  case code =>
    intro x y mids rest s hmids hinputs
    exact runs_store_then_read untouched_code Engine.setCode_c (by decide) (by decide) exec_setc exec_getc hmids hinputs
  case transfers =>
    rintro i s (⟨k, rfl⟩ | ⟨k, rfl⟩ | rfl | rfl)
    · exact ⟨_, _, exec_setv k s, (sameCode_setLane s.engine k s.wdata).1⟩
    · exact ⟨_, _, exec_getv k s, (SameCode.refl s.engine).1⟩
    · exact ⟨_, _, exec_setc s, sameConfig_setCode s.engine s.wdata⟩
    · exact ⟨_, _, exec_getc s, (SameCode.refl s.engine).1⟩
  case cfg =>
    intro d b s t hexec
    obtain ⟨e, st, x, hanswer, hengine⟩ := exec_answersAs (.cfg d b) s
    obtain rfl := Host.Outcome.next.inj (hexec.symm.trans hanswer)
    obtain rfl | rfl := hengine
    · exact ⟨rfl, rfl⟩
    · exact ⟨Engine.configure_v s.engine d b, Engine.configure_c s.engine d b⟩

end Sys2Proof.Machine
end

section
/-! R145 to R155: how a command fails. `Failure` lists the ends with a non-zero status, each with its condition and the
word it reports, in the order of R154; a command fails in exactly these ways and otherwise succeeds. -/

namespace Sys2Proof.Machine

/-! ### The scans of R102 and R120 -/

/-- A scan of the first n lane registers stops at the least one that satisfies `p`. -/
theorem Engine.find?_lanes_eq_some {e : Engine} {n : Nat} {p : Data → Bool} {x : Data} :
    (e.lanes n).find? p = some x ↔
      ∃ k : Fin 64, k.val < n ∧ x = e.lane k ∧ p x = true ∧ ∀ j : Fin 64, j.val < k.val → p (e.lane j) = false := by
  simp only [List.find?_eq_some_iff_getElem, Engine.getElem_lanes, Engine.length_lanes, Bool.not_eq_true']
  constructor
  · rintro ⟨hp, i, hi, rfl, hleast⟩
    exact ⟨⟨i, (Nat.lt_min.mp hi).2⟩, (Nat.lt_min.mp hi).1, rfl, hp, fun j hj => hleast j.val hj⟩
  · rintro ⟨k, hk, rfl, hp, hleast⟩
    exact ⟨hp, k.val, Nat.lt_min.mpr ⟨hk, k.isLt⟩, rfl, fun j hj => hleast ⟨j, hj.trans k.isLt⟩ hj⟩

/-- PACK's scan reports the least lane register that is not below 2^B (R102). -/
theorem firstUnsignedOffender_lanes_some {e : Engine} {n : Nat} {x : Data} :
    firstUnsignedOffender e.b.toNat (e.lanes n) = some x ↔
      ∃ k : Fin 64, k.val < n ∧ x = e.lane k ∧ 2 ^ e.b.toNat ≤ x.toNat ∧ e.LanesInRange k.val := by
  simp only [firstUnsignedOffender, Engine.find?_lanes_eq_some, unsignedOutOfRange, decide_eq_true_eq,
    decide_eq_false_iff_not, not_le]

theorem signedOutOfRange_true {b : Nat} {x : Data} :
    signedOutOfRange b x = true ↔ (2 ^ (b - 1) : Int) ≤ x.toInt ∨ x.toInt ≤ -(2 ^ (b - 1) : Int) :=
  decide_eq_true_iff

/-- SPACK's scan reports the least lane register that is outside the signed range (R120). -/
theorem firstSignedOffender_lanes_some {e : Engine} {n : Nat} {x : Data} :
    firstSignedOffender e.b.toNat (e.lanes n) = some x ↔
      ∃ k : Fin 64, k.val < n ∧ x = e.lane k ∧
        ((2 ^ (e.b.toNat - 1) : Int) ≤ x.toInt ∨ x.toInt ≤ -(2 ^ (e.b.toNat - 1) : Int)) ∧
        e.LanesInSignedRange k.val := by
  rw [firstSignedOffender, Engine.find?_lanes_eq_some]
  simp only [signedOutOfRange_false, signedOutOfRange_true]

theorem lanesInSignedRange_of_no_offender {e : Engine} {n : Nat}
    (h : firstSignedOffender e.b.toNat (e.lanes n) = none) : e.LanesInSignedRange n :=
  fun k hk => firstSignedOffender_none.mp h _ (Engine.mem_lanes.mpr ⟨k, hk, rfl⟩)

/-! ### The remaining ends of SPACK and RDT -/

theorem exec_spack_of_offender {s : State} {n : Byte} {x : Data} (hv : s.engine.valid = true)
    (hx : firstSignedOffender s.engine.b.toNat (s.engine.lanes n.toNat) = some x) :
    exec (.spack n) s = .next (s.answer s.engine .signedValueOutOfRange x) := by
  change execSpack n s = _
  rw [execSpack, whenConfigured_of_valid _ hv, hx]
  rfl

theorem exec_spack_of_no_offender {s : State} {n : Byte} (hv : s.engine.valid = true)
    (hnone : firstSignedOffender s.engine.b.toNat (s.engine.lanes n.toNat) = none)
    (hn : n.toNat = s.engine.d.toNat) :
    ∃ code, exec (.spack n) s = .next (s.answer (s.engine.setCode code) .ok code) := by
  change ∃ code, execSpack n s = _
  rw [execSpack, whenConfigured_of_valid _ hv, hnone]
  exact ⟨_, if_neg (not_not_intro hn)⟩

theorem exec_rdt_of_nsteps_le {s : State} {sel : TableArray} {j : Byte} (hv : s.engine.valid = true)
    (hj : s.engine.nsteps.toNat ≤ j.toNat) :
    exec (.rdt sel j) s =
      .next (s.answer s.engine .tableIndexOutOfRange (infoWord (s.engine.nsteps.setWidth 64) (j.setWidth 64))) := by
  change execRdt sel j s = _
  rw [execRdt, whenConfigured_of_valid _ hv, dif_pos hj, raise_next]

theorem exec_rdt_of_lt_nsteps {s : State} (sel : TableArray) {j : Byte} (hv : s.engine.valid = true)
    (hj : ¬ s.engine.nsteps.toNat ≤ j.toNat) :
    ∃ x, exec (.rdt sel j) s = .next (s.answer s.engine .ok x) := by
  change ∃ x, execRdt sel j s = _
  rw [execRdt, whenConfigured_of_valid _ hv, dif_neg hj]
  exact ⟨_, respond_next _ _ s⟩

/-! ### The ways to fail -/

/-- The commands that need a codec (R25, R150). -/
inductive NeedsCodec : Instr → Prop
  | pack (n : Byte) : NeedsCodec (.pack n)
  | unpack : NeedsCodec .unpack
  | spack (n : Byte) : NeedsCodec (.spack n)
  | sunpack : NeedsCodec .sunpack
  | rdt (sel : TableArray) (j : Byte) : NeedsCodec (.rdt sel j)

theorem needsCodec_iff {i : Instr} :
    NeedsCodec i ↔ (∃ n, i = .pack n) ∨ i = .unpack ∨ (∃ n, i = .spack n) ∨ i = .sunpack ∨ ∃ t j, i = .rdt t j := by
  constructor
  · rintro (_ | _ | _ | _ | _) <;> simp
  · rintro (⟨n, rfl⟩ | rfl | ⟨n, rfl⟩ | rfl | ⟨sel, j, rfl⟩) <;> constructor

theorem exec_of_needsCodec {i : Instr} {s : State} (h : NeedsCodec i) (hv : s.engine.valid = false) :
    exec i s = .next (s.answer s.engine .notConfigured 0) := by
  cases h <;> exact whenConfigured_of_not_valid _ hv

/-- The engine `e` lets the command fail with this status and this RDATA (R146 to R152). -/
inductive Failure (e : Engine) : Instr → Status → Data → Prop
  | illegalPair {d b : Byte} (hpair : ¬ LegalPair d.toNat b.toNat) :
    Failure e (.cfg d b) .invalidConfiguration (infoWord (d.setWidth 64) (b.setWidth 64))
  | noCodec {i : Instr} (hneeds : NeedsCodec i) (hv : e.valid = false) : Failure e i .notConfigured 0
  | packCount {n : Byte} (hv : e.valid = true) (hn : n.toNat ≠ e.d.toNat) :
    Failure e (.pack n) .dimensionMismatch (infoWord (e.d.setWidth 64) (n.setWidth 64))
  | packValue {n : Byte} {k : Fin 64} (hv : e.valid = true) (hn : n.toNat = e.d.toNat) (hk : k.val < e.d.toNat)
    (hbad : 2 ^ e.b.toNat ≤ (e.lane k).toNat) (hleast : e.LanesInRange k.val) :
    Failure e (.pack n) .valueOutOfRange (e.lane k)
  | spackValue {n : Byte} {k : Fin 64} (hv : e.valid = true) (hk : k.val < n.toNat)
    (hbad : (2 ^ (e.b.toNat - 1) : Int) ≤ (e.lane k).toInt ∨ (e.lane k).toInt ≤ -(2 ^ (e.b.toNat - 1) : Int))
    (hleast : e.LanesInSignedRange k.val) : Failure e (.spack n) .signedValueOutOfRange (e.lane k)
  | spackCount {n : Byte} (hv : e.valid = true) (hrange : e.LanesInSignedRange n.toNat) (hn : n.toNat ≠ e.d.toNat) :
    Failure e (.spack n) .dimensionMismatch (infoWord (e.d.setWidth 64) (n.setWidth 64))
  | tableIndex {sel : TableArray} {j : Byte} (hv : e.valid = true) (hj : e.nsteps.toNat ≤ j.toNat) :
    Failure e (.rdt sel j) .tableIndexOutOfRange (infoWord (e.nsteps.setWidth 64) (j.setWidth 64))

/-- What `Failure` lists is what the model answers, the engine as before (R155). -/
theorem Failure.failsWith {i : Instr} {s : State} {st : Status} {x : Data} (h : Failure s.engine i st x) :
    FailsWith i s st x := by
  cases h with
  | illegalPair hpair => exact exec_cfg_of_not_legal s hpair
  | noCodec hneeds hv => exact exec_of_needsCodec hneeds hv
  | packCount hv hn => exact exec_pack_of_count_ne hv hn
  | packValue hv hn hk hbad hleast =>
    exact exec_pack_of_offender hv hn (firstUnsignedOffender_lanes_some.mpr ⟨_, hk, rfl, hbad, hleast⟩)
  | spackValue hv hk hbad hleast =>
    exact exec_spack_of_offender hv (firstSignedOffender_lanes_some.mpr ⟨_, hk, rfl, hbad, hleast⟩)
  | spackCount hv hrange hn => exact exec_spack_of_count_ne hv hrange hn
  | tableIndex hv hj => exact exec_rdt_of_nsteps_le hv hj

/-- The command fails in a listed way, or it succeeds. -/
abbrev FailsOrSucceeds (i : Instr) (s : State) : Prop :=
  (∃ st x, Failure s.engine i st x) ∨ ∃ e x, Succeeds i s e x

theorem pack_fails_or_succeeds (n : Byte) {s : State} (hv : s.engine.valid = true) :
    FailsOrSucceeds (.pack n) s := by
  by_cases hn : n.toNat = s.engine.d.toNat
  · cases hx : firstUnsignedOffender s.engine.b.toNat (s.engine.lanes s.engine.d.toNat) with
    | some x =>
      obtain ⟨k, hk, rfl, hbad, hleast⟩ := firstUnsignedOffender_lanes_some.mp hx
      exact .inl ⟨_, _, .packValue hv hn hk hbad hleast⟩
    | none => exact .inr ⟨_, _, exec_pack_of_no_offender hv hn hx⟩
  · exact .inl ⟨_, _, .packCount hv hn⟩

theorem spack_fails_or_succeeds (n : Byte) {s : State} (hv : s.engine.valid = true) :
    FailsOrSucceeds (.spack n) s := by
  cases hx : firstSignedOffender s.engine.b.toNat (s.engine.lanes n.toNat) with
  | some x =>
    obtain ⟨k, hk, rfl, hbad, hleast⟩ := firstSignedOffender_lanes_some.mp hx
    exact .inl ⟨_, _, .spackValue hv hk hbad hleast⟩
  | none =>
    by_cases hn : n.toNat = s.engine.d.toNat
    · obtain ⟨code, hexec⟩ := exec_spack_of_no_offender hv hx hn
      exact .inr ⟨_, _, hexec⟩
    · exact .inl ⟨_, _, .spackCount hv (lanesInSignedRange_of_no_offender hx) hn⟩

theorem rdt_fails_or_succeeds (sel : TableArray) (j : Byte) {s : State} (hv : s.engine.valid = true) :
    FailsOrSucceeds (.rdt sel j) s := by
  by_cases hj : s.engine.nsteps.toNat ≤ j.toNat
  · exact .inl ⟨_, _, .tableIndex hv hj⟩
  · obtain ⟨x, hexec⟩ := exec_rdt_of_lt_nsteps sel hv hj
    exact .inr ⟨_, x, hexec⟩

/-- Without a codec a command that needs one fails, so only the states with a codec are left to look at. -/
theorem NeedsCodec.fails_or_succeeds {i : Instr} {s : State} (h : NeedsCodec i)
    (hvalid : s.engine.valid = true → FailsOrSucceeds i s) : FailsOrSucceeds i s := by
  cases hv : s.engine.valid with
  | false => exact .inl ⟨_, _, .noCodec h hv⟩
  | true => exact hvalid hv

/-- Every command, in every state, fails in one of the listed ways or succeeds (R153). -/
theorem exec_fails_or_succeeds (i : Instr) (s : State) : FailsOrSucceeds i s := by
  cases i with
  | cfg d b =>
    by_cases hpair : LegalPair d.toNat b.toNat
    · exact .inr ⟨_, _, exec_cfg_of_legal s hpair⟩
    · exact .inl ⟨_, _, .illegalPair hpair⟩
  | pack n => exact (NeedsCodec.pack n).fails_or_succeeds (pack_fails_or_succeeds n)
  | unpack => exact NeedsCodec.unpack.fails_or_succeeds fun hv => .inr ⟨_, _, exec_unpack_of_valid hv⟩
  | spack n => exact (NeedsCodec.spack n).fails_or_succeeds (spack_fails_or_succeeds n)
  | sunpack => exact NeedsCodec.sunpack.fails_or_succeeds fun hv => .inr ⟨_, _, exec_sunpack_of_valid hv⟩
  | setv k => exact .inr ⟨_, _, exec_setv k s⟩
  | getv k => exact .inr ⟨_, _, exec_getv k s⟩
  | setc => exact .inr ⟨_, _, exec_setc s⟩
  | getc => exact .inr ⟨_, _, exec_getc s⟩
  | rdcfg => exact .inr ⟨_, _, exec_rdcfg s⟩
  | rdt sel j => exact (NeedsCodec.rdt sel j).fails_or_succeeds (rdt_fails_or_succeeds sel j)

/-- The list is complete: an end with a non-zero status is on it, and it leaves the engine as it was (R155). -/
theorem failure_of_exec {i : Instr} {s : State} {e : Engine} {st : Status} {x : Data}
    (h : exec i s = .next (s.answer e st x)) (hst : st ≠ .ok) : e = s.engine ∧ Failure s.engine i st x := by
  obtain ⟨su, y, hfail⟩ | ⟨f, y, hok⟩ := exec_fails_or_succeeds i s
  · obtain ⟨rfl, rfl, rfl⟩ := State.answer_inj.mp (Host.Outcome.next.inj (h.symm.trans hfail.failsWith))
    exact ⟨rfl, hfail⟩
  · obtain ⟨-, hstatus, -⟩ := State.answer_inj.mp (Host.Outcome.next.inj (h.symm.trans hok))
    exact absurd hstatus hst

theorem failure_of_endsIn {i : Instr} {s : State} {st : Status} (h : EndsIn i s st) (hst : st ≠ .ok) :
    ∃ x, Failure s.engine i st x := by
  obtain ⟨e, x, hexec⟩ := h
  exact ⟨x, (failure_of_exec hexec hst).2⟩

theorem Failure.endsIn {i : Instr} {s : State} {st : Status} {x : Data} (h : Failure s.engine i st x) : EndsIn i s st :=
  ⟨_, x, h.failsWith⟩

/-! ### All failures: R155 -/

/-- Settles O12: an illegal word is answered with the engine as before, and so is a command that fails. -/
theorem failedCommandWritesNothing : Obligations.FailedCommandWritesNothing := by
  intro w s
  cases hdecode : decode w with
  | illegal why => exact ⟨_, _, _, execWord_of_illegal s hdecode, fun _ => rfl⟩
  | legal i =>
    rw [execWord_of_legal s hdecode]
    obtain ⟨e, st, x, hexec, -⟩ := exec_answersAs i s
    exact ⟨e, st, x, hexec, fun hst => (failure_of_exec hexec hst).1⟩

end Sys2Proof.Machine
end

section
/-! R146 to R152, status by status: when each is raised and what it reports, read off the list of failures. -/

namespace Sys2Proof.Machine

/-! ### Statuses of CFG, PACK and SPACK -/

/-- Settles O43: the list has one way to InvalidConfiguration, a CFG whose pair is not legal. -/
theorem invalidConfigurationExactly : Obligations.InvalidConfigurationExactly := by
  have hfails (d b : Byte) (s : State) (h : d = 0 ∨ b = 0 ∨ 64 < d.toNat * b.toNat) :
      FailsWith (.cfg d b) s .invalidConfiguration (infoWord (d.setWidth 64) (b.setWidth 64)) :=
    exec_cfg_of_not_legal s (not_legalPair_iff.mpr h)
  refine ⟨fun i s => ⟨fun hend => ?_, ?_⟩, hfails, by decide, fun s => hfails 9 8 s (by decide)⟩
  · obtain ⟨x, hfail⟩ := failure_of_endsIn hend nofun
    cases hfail with
    | illegalPair hpair => exact ⟨_, _, rfl, not_legalPair_iff.mp hpair⟩
  · rintro ⟨d, b, rfl, h⟩
    exact ⟨_, _, hfails d b s h⟩

/-- Settles O44: the list has two ways to DimensionMismatch, and both report D and the count. -/
theorem dimensionMismatchExactly : Obligations.DimensionMismatchExactly := by
  refine ⟨fun i s => ⟨fun hend => ?_, ?_⟩, fun n s i hi hend => ?_, by decide, fun s hconf => ?_⟩
  · obtain ⟨x, hfail⟩ := failure_of_endsIn hend nofun
    cases hfail with
    | packCount hv hn => exact ⟨hv, _, hn, .inl rfl⟩
    | spackCount hv hrange hn => exact ⟨hv, _, hn, .inr ⟨rfl, hrange⟩⟩
  · rintro ⟨hv, n, hn, rfl | ⟨rfl, hrange⟩⟩
    · exact (Failure.packCount hv hn).endsIn
    · exact (Failure.spackCount hv hrange hn).endsIn
  · obtain ⟨x, hfail⟩ := failure_of_endsIn hend nofun
    obtain rfl | rfl := hi
    · cases hfail with
      | packCount hv hn => exact exec_pack_of_count_ne hv hn
    · cases hfail with
      | spackCount hv hrange hn => exact exec_spack_of_count_ne hv hrange hn
  · obtain ⟨-, hv, hd, -⟩ := hconf
    have hd16 : s.engine.d = 16 := BitVec.eq_of_toNat_eq hd
    have hfail : Failure s.engine (.pack 15) .dimensionMismatch _ := .packCount hv (by rw [hd]; decide)
    rw [hd16] at hfail
    exact hfail.failsWith

/-- Settles O45: the list has one way to ValueOutOfRange, and no 64-bit value is 2^64 or more. -/
theorem valueOutOfRangeExactly : Obligations.ValueOutOfRangeExactly := by
  refine ⟨fun i s hend => ?_, fun n s x => ?_, fun s n hb hend => ?_, fun s hconf hlane hleast => ?_⟩
  · obtain ⟨x, hfail⟩ := failure_of_endsIn hend nofun
    have hfails := hfail.failsWith
    cases hfail with
    | packValue hv hn hk hbad hleast => exact ⟨_, rfl, hn, _, hfails⟩
  · refine ⟨fun hfails => ?_, ?_⟩
    · cases (failure_of_exec hfails nofun).2 with
      | packValue hv hn hk hbad hleast => exact ⟨hv, hn, _, hk, rfl, hbad, hleast⟩
    · rintro ⟨hv, hn, k, hk, rfl, hbad, hleast⟩
      exact (Failure.packValue hv hn hk hbad hleast).failsWith
  · obtain ⟨x, hfail⟩ := failure_of_endsIn hend nofun
    cases hfail with
    | packValue hv hn hk hbad hleast =>
      rw [hb] at hbad
      exact absurd hbad (Nat.not_le.mpr (BitVec.isLt _))
  · obtain ⟨-, hv, hd, hb, -⟩ := hconf
    have hbad : 2 ^ s.engine.b.toNat ≤ (s.engine.lane 3).toNat := by rw [hb, hlane]; decide
    have hfail : Failure s.engine (.pack 16) .valueOutOfRange (s.engine.lane 3) :=
      .packValue hv hd.symm (by rw [hd]; decide) hbad hleast
    rw [hlane] at hfail
    exact hfail.failsWith

/-- Settles O46: the list has one way to SignedValueOutOfRange, and D is not in it. -/
theorem signedValueOutOfRangeExactly : Obligations.SignedValueOutOfRangeExactly := by
  refine ⟨fun i s hend => ?_, fun n s x => ?_, fun s hconf hleast hlane => ?_⟩
  · obtain ⟨x, hfail⟩ := failure_of_endsIn hend nofun
    have hfails := hfail.failsWith
    cases hfail with
    | spackValue hv hk hbad hleast => exact ⟨_, rfl, _, hfails⟩
  · refine ⟨fun hfails => ?_, ?_⟩
    · cases (failure_of_exec hfails nofun).2 with
      | spackValue hv hk hbad hleast => exact ⟨hv, _, hk, rfl, hbad, hleast⟩
    · rintro ⟨hv, k, hk, rfl, hbad, hleast⟩
      exact (Failure.spackValue hv hk hbad hleast).failsWith
  · obtain ⟨-, hv, -, hb, -⟩ := hconf
    have hbad : (s.engine.lane 1).toInt ≤ -(2 ^ (s.engine.b.toNat - 1) : Int) := by rw [hb, hlane]; decide
    have hfail : Failure s.engine (.spack 2) .signedValueOutOfRange (s.engine.lane 1) :=
      .spackValue hv (by decide) (.inr hbad) hleast
    rw [hlane] at hfail
    exact hfail.failsWith

/-! ### NotConfigured and VALID -/

/-- No command but CFG writes VALID (R20). -/
theorem Instr.Writes.valid_eq {i : Instr} {e f : Engine} (h : Instr.Writes e f i) (hi : ∀ d b, i ≠ .cfg d b) :
    f.valid = e.valid := by
  cases i with
  | cfg d b => exact absurd rfl (hi d b)
  | pack | spack | setc => obtain ⟨c, rfl⟩ := h; rfl
  | unpack | sunpack => obtain ⟨g, rfl⟩ := h; rfl
  | setv k => obtain ⟨x, rfl⟩ := h; rfl
  | getv | getc | rdcfg | rdt => exact h.elim

/-- VALID turns 1 by a CFG of a legal pair, and nothing but `rst` clears it (R25, R150). -/
theorem exec_valid_iff {i : Instr} {s t : State} (hexec : exec i s = .next t) :
    t.engine.valid = true ↔ s.engine.valid = true ∨ ∃ d b, i = .cfg d b ∧ LegalPair d.toNat b.toNat := by
  by_cases hcfg : ∃ d b, i = .cfg d b
  · obtain ⟨d, b, rfl⟩ := hcfg
    by_cases hpair : LegalPair d.toNat b.toNat
    · obtain rfl := Host.Outcome.next.inj (hexec.symm.trans (exec_cfg_of_legal s hpair))
      exact iff_of_true rfl (.inr ⟨d, b, rfl, hpair⟩)
    · obtain rfl := Host.Outcome.next.inj (hexec.symm.trans (exec_cfg_of_not_legal s hpair))
      refine (or_iff_left ?_).symm
      rintro ⟨d, b, ⟨⟩, h⟩
      exact hpair h
  · obtain ⟨e, st, x, hanswer, hengine⟩ := exec_answersAs i s
    obtain rfl := Host.Outcome.next.inj (hexec.symm.trans hanswer)
    have hvalid : e.valid = s.engine.valid := by
      obtain rfl | hwrites := hengine
      · rfl
      · exact hwrites.valid_eq fun d b h => hcfg ⟨d, b, h⟩
    rw [State.answer_engine, hvalid, or_iff_left]
    rintro ⟨d, b, h, -⟩
    exact hcfg ⟨d, b, h⟩

/-- Settles O47: the list has one way to NotConfigured; CFG alone writes VALID. -/
theorem notConfiguredExactly : Obligations.NotConfiguredExactly := by
  refine ⟨fun i s => ?_, fun i s hend => ?_, ⟨rfl, fun i s t => exec_valid_iff⟩, by decide,
    exec_pack_of_not_valid 2 rfl⟩
  · rw [← needsCodec_iff]
    refine ⟨fun hend => ?_, fun ⟨hv, hneeds⟩ => (Failure.noCodec hneeds hv).endsIn⟩
    obtain ⟨x, hfail⟩ := failure_of_endsIn hend nofun
    cases hfail with
    | noCodec hneeds hv => exact ⟨hv, hneeds⟩
  · obtain ⟨x, hfail⟩ := failure_of_endsIn hend nofun
    cases hfail with
    | noCodec hneeds hv => exact exec_of_needsCodec hneeds hv

/-! ### IllegalCommand and TableIndexOutOfRange -/

/-- Settles O48: IllegalCommand is not on the list, so no legal word is answered with it. -/
theorem illegalCommandExactly : Obligations.IllegalCommandExactly := by
  refine ⟨fun w s x => ⟨?_, ?_⟩, fun s => ?_⟩
  · rintro ⟨e, hexec⟩
    cases hdecode : decode w with
    | illegal why =>
      rw [execWord_of_illegal s hdecode] at hexec
      obtain ⟨-, -, hx⟩ := State.answer_inj.mp (Host.Outcome.next.inj hexec)
      exact ⟨⟨why, rfl⟩, hx.symm⟩
    | legal i =>
      rw [execWord_of_legal s hdecode] at hexec
      exact nomatch (failure_of_exec hexec nofun).2
  · rintro ⟨⟨why, hdecode⟩, rfl⟩
    exact ⟨_, execWord_of_illegal s hdecode⟩
  · exact execWord_of_illegal (why := .count) s (by decide)

/-- Settles O49: the list has one way to TableIndexOutOfRange; the table of (64, 1) has one entry. -/
theorem tableIndexOutOfRangeExactly : Obligations.TableIndexOutOfRangeExactly := by
  refine ⟨fun i s => ⟨fun hend => ?_, ?_⟩, fun t j s hend => ?_, by decide, fun s hconf => ?_⟩
  · obtain ⟨x, hfail⟩ := failure_of_endsIn hend nofun
    cases hfail with
    | tableIndex hv hj => exact ⟨hv, _, _, rfl, hj⟩
  · rintro ⟨hv, sel, j, rfl, hj⟩
    exact (Failure.tableIndex hv hj).endsIn
  · obtain ⟨x, hfail⟩ := failure_of_endsIn hend nofun
    cases hfail with
    | tableIndex hv hj => exact exec_rdt_of_nsteps_le hv hj
  · obtain ⟨-, hv, -, -, hn, -⟩ := hconf
    have hlength : (tables 64 1).mask.length = 1 := by decide +kernel
    rw [hlength] at hn
    have hn1 : s.engine.nsteps = 1 := BitVec.eq_of_toNat_eq hn
    have hfail : Failure s.engine (.rdt .mask 1) .tableIndexOutOfRange _ := .tableIndex hv (by rw [hn]; decide)
    rw [hn1] at hfail
    exact hfail.failsWith

end Sys2Proof.Machine
end

section
/-! R57 to R65: the decoder and the encoder invert each other. One lemma per operand check says which commands it lets
through; read off them, a legal word is the encoding of the well-formed command it decodes to. -/

namespace Sys2Proof

open Machine (decode_commandWord decode_encode_pack decode_encode_spack decode_encode_setv decode_encode_getv)

/-! ### Decoding an encoding -/

theorem decode_encode_rdt (sel : TableArray) (j : Byte) : decode (encode (.rdt sel j)) = .legal (.rdt sel j) := by
  rw [encode, decode_commandWord, decodeOperands, withSelector, tableArrayOf_selector]

theorem decode_encode_of_wellFormed {i : Instr} (h : i.wellFormed = true) : decode (encode i) = .legal i := by
  cases i with
  | cfg d b => exact decode_commandWord .cfg d b
  | pack n => exact decode_encode_pack (of_decide_eq_true h)
  | spack n => exact decode_encode_spack (of_decide_eq_true h)
  | setv k => exact decode_encode_setv k
  | getv k => exact decode_encode_getv k
  | unpack | sunpack | setc | getc | rdcfg => decide
  | rdt sel j => exact decode_encode_rdt sel j

/-- Settles O4: the operand bytes of an encoding pass the checks of its own opcode. -/
theorem decodeEncode : Obligations.DecodeEncode := fun _ => decode_encode_of_wellFormed

/-! ### What each operand check lets through -/

theorem formatZ_eq_legal {i j : Instr} {a b : Byte} : formatZ j a b = .legal i ↔ a = 0 ∧ b = 0 ∧ j = i := by
  unfold formatZ
  split
  case isTrue h => exact iff_of_false nofun fun ⟨ha, hb, _⟩ => h.elim (· ha) (· hb)
  case isFalse h =>
    obtain ⟨ha, hb⟩ := not_or.mp h
    rw [Decoded.legal.injEq, and_iff_right (not_not.mp ha), and_iff_right (not_not.mp hb)]

theorem formatA_eq_legal {i : Instr} {k : Byte → Decoded} {a b : Byte} :
    formatA k a b = .legal i ↔ b = 0 ∧ k a = .legal i := by
  unfold formatA
  split
  case isTrue h => exact iff_of_false nofun fun ⟨hb, _⟩ => h hb
  case isFalse h => exact (and_iff_right (not_not.mp h)).symm

theorem withCount_eq_legal {i : Instr} {k : Byte → Instr} {a : Byte} :
    withCount k a = .legal i ↔ a.toNat ≤ 64 ∧ k a = i := by
  unfold withCount
  split
  case isTrue h => exact iff_of_false nofun fun ⟨ha, _⟩ => Nat.not_le.mpr h ha
  case isFalse h => rw [Decoded.legal.injEq, and_iff_right (Nat.not_lt.mp h)]

theorem exists_of_withLane_eq_legal {i : Instr} {k : Fin 64 → Instr} {a : Byte} (h : withLane k a = .legal i) :
    ∃ l, laneByte l = a ∧ k l = i := by
  unfold withLane at h
  split at h
  case isTrue ha => exact ⟨⟨a.toNat, ha⟩, BitVec.ofNat_toNat 8 a, Decoded.legal.inj h⟩
  case isFalse => cases h

theorem exists_of_withSelector_eq_legal {i : Instr} {k : TableArray → Instr} {a : Byte}
    (h : withSelector k a = .legal i) : ∃ t, t.selector = a ∧ k t = i := by
  unfold withSelector at h
  split at h
  case h_1 t ht => exact ⟨t, tableArrayOf_eq_some ht, Decoded.legal.inj h⟩
  case h_2 => cases h

/-! ### A legal word -/

/-- The operands an opcode lets through are those of a well-formed command that encodes to them. -/
theorem encode_of_decodeOperands_eq_legal {o : Opcode} {a b : Byte} {i : Instr} (h : decodeOperands o a b = .legal i) :
    i.wellFormed = true ∧ encode i = commandWord o.byte a b := by
  cases o with
  | cfg =>
    obtain rfl := Decoded.legal.inj h
    exact ⟨rfl, rfl⟩
  | pack | spack =>
    obtain ⟨rfl, h⟩ := formatA_eq_legal.mp h
    obtain ⟨hcount, rfl⟩ := withCount_eq_legal.mp h
    exact ⟨decide_eq_true hcount, rfl⟩
  | setv | getv =>
    obtain ⟨rfl, h⟩ := formatA_eq_legal.mp h
    obtain ⟨l, rfl, rfl⟩ := exists_of_withLane_eq_legal h
    exact ⟨rfl, rfl⟩
  | unpack | sunpack | setc | getc | rdcfg =>
    obtain ⟨rfl, rfl, rfl⟩ := formatZ_eq_legal.mp h
    exact ⟨rfl, rfl⟩
  | rdt =>
    obtain ⟨t, rfl, rfl⟩ := exists_of_withSelector_eq_legal h
    exact ⟨rfl, rfl⟩

/-- Settles O5: the word of a decoded command is put together from the four fields of the word it was read from. -/
theorem encodeDecode : Obligations.EncodeDecode := by
  intro w i h
  unfold decode at h
  split at h
  case isTrue => cases h
  case isFalse hrsv =>
    split at h
    case h_1 o ho =>
      obtain ⟨hwf, hword⟩ := encode_of_decodeOperands_eq_legal h
      rw [opcodeOf_eq_some ho, word_of_fields w (not_not.mp hrsv)] at hword
      exact ⟨hwf, hword⟩
    case h_2 => cases h

/-- Settles O1: the seven words are computed. -/
theorem writtenWordsDecode : Obligations.WrittenWordsDecode := by
  unfold Obligations.WrittenWordsDecode
  decide

/-! ### The rows of the opcode table (R59) -/

theorem encode_and_rowMask {i : Instr} (h : i.wellFormed = true) : encode i &&& i.opcode.rowMask = i.opcode.rowMatch := by
  cases i with
  | cfg d b => exact Laws.TableRow.cfg d b h
  | pack n => exact Laws.TableRow.pack n h
  | unpack => exact Laws.TableRow.unpack h
  | spack n => exact Laws.TableRow.spack n h
  | sunpack => exact Laws.TableRow.sunpack h
  | setv k => exact Laws.TableRow.setv k h
  | getv k => exact Laws.TableRow.getv k h
  | setc => exact Laws.TableRow.setc h
  | getc => exact Laws.TableRow.getc h
  | rdcfg => exact Laws.TableRow.rdcfg h
  | rdt sel j => exact Laws.TableRow.rdt sel j h

/-- The part of a row that is about one field: what the row fixes in that field of the word. -/
theorem extractLsb'_of_row {w m x : CmdWord} (h : w &&& m = x) (k : Nat) :
    w.extractLsb' k 8 &&& m.extractLsb' k 8 = x.extractLsb' k 8 := by
  rw [← h, BitVec.extractLsb'_and]

/-- Every row fixes the whole opcode byte. -/
theorem opField_of_row {w : CmdWord} {o : Opcode} (h : w &&& o.rowMask = o.rowMatch) : opField w = o.byte := by
  have hmask : o.rowMask.extractLsb' 0 8 = BitVec.allOnes 8 := by cases o <;> decide
  have hmatch : o.rowMatch.extractLsb' 0 8 = o.byte := by cases o <;> decide
  have hfield := extractLsb'_of_row h 0
  rwa [hmask, hmatch, BitVec.and_allOnes] at hfield

/-- Every row fixes the reserved byte to 0. -/
theorem rsvField_of_row {w : CmdWord} {o : Opcode} (h : w &&& o.rowMask = o.rowMatch) : rsvField w = 0 := by
  have hmask : o.rowMask.extractLsb' 24 8 = BitVec.allOnes 8 := by cases o <;> decide
  have hmatch : o.rowMatch.extractLsb' 24 8 = 0 := by cases o <;> decide
  have hfield := extractLsb'_of_row h 24
  rwa [hmask, hmatch, BitVec.and_allOnes] at hfield

/-- A byte that is 0 under a mask is at most what the mask leaves free. -/
theorem toNat_le_of_and_eq_zero {a m : Byte} (h : a &&& m = 0) : a.toNat ≤ (~~~m).toNat := by
  have hfree : a &&& ~~~m = a := by
    conv_rhs => rw [← BitVec.and_allOnes (x := a), ← BitVec.or_not_self m, BitVec.and_or_distrib_left, h]
    exact BitVec.zero_or.symm
  rw [← hfree, BitVec.toNat_and]
  exact Nat.and_le_right

/-- What the row of `o` fixes in the operand bytes `a` and `b`: the bits of its mask there are 0. -/
def RowOperands (o : Opcode) (a b : Byte) : Prop :=
  a &&& o.rowMask.extractLsb' 8 8 = 0 ∧ b &&& o.rowMask.extractLsb' 16 8 = 0

theorem rowOperands_of_row {w : CmdWord} {o : Opcode} (h : w &&& o.rowMask = o.rowMatch) :
    RowOperands o (aField w) (bField w) := by
  have ha : o.rowMatch.extractLsb' 8 8 = 0 := by cases o <;> decide
  have hb : o.rowMatch.extractLsb' 16 8 = 0 := by cases o <;> decide
  exact ⟨(extractLsb'_of_row h 8).trans ha, (extractLsb'_of_row h 16).trans hb⟩

theorem decode_of_row {w : CmdWord} {o : Opcode} (h : w &&& o.rowMask = o.rowMatch) :
    decode w = decodeOperands o (aField w) (bField w) := by
  have hword := word_of_fields w (rsvField_of_row h)
  rw [opField_of_row h] at hword
  rw [← decode_commandWord, hword]

/-- The illegal operands of a row: the counts 65 .. 127 and the selector 3. -/
theorem decodeOperands_illegal_of_row {o : Opcode} {a b : Byte} (h : RowOperands o a b) :
    (∃ why, decodeOperands o a b = .illegal why) ↔
      ((o = .pack ∨ o = .spack) ∧ 65 ≤ a.toNat ∧ a.toNat ≤ 127) ∨ (o = .rdt ∧ a = 3) := by
  have hle := toNat_le_of_and_eq_zero h.1
  have hble := toNat_le_of_and_eq_zero h.2
  cases o with
  | cfg => exact iff_of_false nofun (by simp)
  | unpack | sunpack | setc | getc | rdcfg =>
    have ha : a = 0 := BitVec.eq_of_toNat_eq (Nat.le_zero.mp hle)
    have hb : b = 0 := BitVec.eq_of_toNat_eq (Nat.le_zero.mp hble)
    simp [decodeOperands, formatZ_illegal, ha, hb]
  | setv | getv =>
    have ha : a.toNat ≤ 63 := hle
    have hb : b = 0 := BitVec.eq_of_toNat_eq (Nat.le_zero.mp hble)
    simp [decodeOperands, formatA_illegal, withLane_illegal, ha, hb]
  | pack | spack =>
    have ha : a.toNat ≤ 127 := hle
    have hb : b = 0 := BitVec.eq_of_toNat_eq (Nat.le_zero.mp hble)
    have hcount : 64 < a.toNat ↔ 65 ≤ a.toNat ∧ a.toNat ≤ 127 := by omega
    simpa [decodeOperands, formatA_illegal, withCount_illegal, hb] using hcount
  | rdt =>
    have ha : a.toNat ≤ 3 := hle
    have hthree : a = 3 ↔ a.toNat = 3 := BitVec.toNat_inj.symm
    rw [decodeOperands, withSelector_illegal, or_iff_right (by simp), and_iff_right rfl, hthree]
    omega

/-- Settles O6: a legal word is an encoding; a row fixes the opcode byte; and it leaves few illegal operands. -/
theorem wordsMatchOneRow : Obligations.WordsMatchOneRow := by
  refine ⟨fun w i h => ?legal, fun w o p ho hp => ?unique, fun w o h => ?illegal⟩
  case legal =>
    obtain ⟨hwf, rfl⟩ := encodeDecode w i h
    exact encode_and_rowMask hwf
  case unique =>
    have hbyte : o.byte = p.byte := (opField_of_row ho).symm.trans (opField_of_row hp)
    exact Option.some.inj (by rw [← opcodeOf_byte, hbyte, opcodeOf_byte])
  case illegal =>
    rw [decode_of_row h]
    exact decodeOperands_illegal_of_row (rowOperands_of_row h)

end Sys2Proof
end

section
/-! R68 and R69: the words of assembler lines are the encoder's. -/

namespace Sys2Proof.Machine

/-- Operands that fit their bytes give the word of R57. -/
theorem asmRequest_of_lt (op : Byte) {a b : Nat} (ha : a < 256) (hb : b < 256) (x : Data) :
    asmRequest op.toNat a b x = some ⟨commandWord op (BitVec.ofNat 8 a) (BitVec.ofNat 8 b), x⟩ := by
  have hword : BitVec.ofNat 32 (op.toNat + a * 2 ^ 8 + b * 2 ^ 16) =
      commandWord op (BitVec.ofNat 8 a) (BitVec.ofNat 8 b) := by
    apply BitVec.eq_of_toNat_eq
    have hop := op.isLt
    simp only [commandWord, BitVec.toNat_append, BitVec.toNat_ofNat, Nat.mod_eq_of_lt ha, Nat.mod_eq_of_lt hb]
    rw [← Nat.shiftLeft_add_eq_or_of_lt hop, ← Nat.shiftLeft_add_eq_or_of_lt ha, ← Nat.shiftLeft_add_eq_or_of_lt hb]
    simp only [Nat.shiftLeft_eq]
    omega
  rw [asmRequest, if_pos ⟨ha, hb⟩, hword]

theorem asmRequest_bytes (op a b : Byte) (x : Data) :
    asmRequest op.toNat a.toNat b.toNat x = some ⟨commandWord op a b, x⟩ := by
  rw [asmRequest_of_lt op a.isLt b.isLt, BitVec.ofNat_toNat, BitVec.ofNat_toNat, BitVec.setWidth_eq, BitVec.setWidth_eq]

theorem asmData_toNat (w : Data) : asmData w.toNat = some w := by
  have hw := w.isLt
  rw [asmData, if_pos (by omega), tc64, BitVec.ofInt_natCast, BitVec.ofNat_toNat, BitVec.setWidth_eq]

/-- Settles O7: the operands of a line are the bytes of the command. -/
theorem assemblerAgreesWithEncoder : Obligations.AssemblerAgreesWithEncoder := by
  intro i w
  cases i with
  | cfg d b => exact congrArg (Option.map _) (asmRequest_bytes Opcode.cfg.byte d b 0)
  | pack n => exact congrArg (Option.map _) (asmRequest_bytes Opcode.pack.byte n 0 0)
  | spack n => exact congrArg (Option.map _) (asmRequest_bytes Opcode.spack.byte n 0 0)
  | unpack | sunpack | getc | rdcfg => rfl
  | setv k =>
    have hsetv : asmSetv k.val w.toNat = some ⟨encode (.setv k), w⟩ := by
      rw [asmSetv, asmData_toNat]
      exact asmRequest_of_lt Opcode.setv.byte (by omega) (by decide) w
    rw [asmLineOf, AsmLine.requests, hsetv, Option.map_some]
  | getv k => exact congrArg (Option.map _) (asmRequest_of_lt Opcode.getv.byte (by omega) (by decide) 0)
  | setc =>
    have hsetc : (asmData w.toNat).bind (asmRequest 0x0A 0 0) = some ⟨encode .setc, w⟩ := by
      rw [asmData_toNat]
      exact asmRequest_bytes Opcode.setc.byte 0 0 w
    rw [asmLineOf, AsmLine.requests, hsetc, Option.map_some]
  | rdt t j => exact congrArg (Option.map _) (asmRequest_bytes Opcode.rdt.byte t.selector j 0)

end Sys2Proof.Machine
end

section
/-! The configuration over commands and steps: CFG with a legal pair is the one command that writes it, so every step
leaves no codec or the codec of a legal (D, B). -/

namespace Sys2Proof.Machine

/-! ### What a command leaves of the configuration -/

theorem SameConfig.refl (e : Engine) : SameConfig e e := (SameCode.refl e).1

/-- No command but CFG writes the configuration (R20). -/
theorem Instr.Writes.sameConfig {i : Instr} {e f : Engine} (h : Instr.Writes e f i) (hi : ∀ d b, i ≠ .cfg d b) :
    SameConfig e f := by
  cases i with
  | cfg d b => exact absurd rfl (hi d b)
  | pack | spack | setc =>
    obtain ⟨c, rfl⟩ := h
    exact sameConfig_setCode e c
  | unpack | sunpack =>
    obtain ⟨g, rfl⟩ := h
    exact (sameCode_writeLanes e g).1
  | setv k =>
    obtain ⟨x, rfl⟩ := h
    exact (sameCode_setLane e k x).1
  | getv | getc | rdcfg | rdt => exact h.elim

/-- A command keeps the configuration, or it is a CFG that installs the codec of a legal pair. -/
theorem exec_sameConfig_or_configure {i : Instr} {s t : State} (hexec : exec i s = .next t) :
    SameConfig s.engine t.engine ∨
      ∃ d b, i = .cfg d b ∧ LegalPair d.toNat b.toNat ∧ t.engine = s.engine.configure d b := by
  by_cases hcfg : ∃ d b, i = .cfg d b
  · obtain ⟨d, b, rfl⟩ := hcfg
    by_cases hlegal : LegalPair d.toNat b.toNat
    · obtain rfl := Host.Outcome.next.inj (hexec.symm.trans (exec_cfg_of_legal s hlegal))
      exact .inr ⟨d, b, rfl, hlegal, rfl⟩
    · obtain rfl := Host.Outcome.next.inj (hexec.symm.trans (exec_cfg_of_not_legal s hlegal))
      exact .inl (.refl _)
  · obtain ⟨e, st, x, hanswer, rfl | hwrites⟩ := exec_answersAs i s
    all_goals obtain rfl := Host.Outcome.next.inj (hexec.symm.trans hanswer)
    · exact .inl (.refl _)
    · exact .inl (hwrites.sameConfig fun d b hi => hcfg ⟨d, b, hi⟩)

/-! ### The invariant -/

theorem Engine.Configured.inv {e : Engine} {d b : Nat} (h : e.Configured d b) : e.Inv := by
  obtain ⟨-, -, rfl, rfl, -⟩ := id h
  exact .inr h

/-- The invariant reads the configuration only. -/
theorem Engine.Inv.of_sameConfig {e f : Engine} (h : e.Inv) (hsame : SameConfig e f) : f.Inv := by
  obtain hnone | hconf := h
  · obtain ⟨hv, hd, hb, hn, -⟩ := hsame
    exact .inl (by rwa [Engine.Unconfigured, hv, hd, hb, hn])
  · exact (hconf.of_sameConfig hsame).inv

theorem Engine.resetAt_inv (k : Nat) : (Engine.resetAt k).Inv := .inl ⟨rfl, rfl, rfl, rfl⟩

theorem exec_keeps_inv {i : Instr} {s t : State} (h : s.engine.Inv) (hexec : exec i s = .next t) : t.engine.Inv := by
  obtain hsame | ⟨d, b, -, hlegal, hengine⟩ := exec_sameConfig_or_configure hexec
  · exact h.of_sameConfig hsame
  · rw [hengine]
    exact (s.engine.configure_configured hlegal).inv

theorem execWord_keeps_inv {w : CmdWord} {s t : State} (h : s.engine.Inv) (hexec : execWord w s = .next t) :
    t.engine.Inv := by
  cases hdecode : decode w with
  | legal i =>
    rw [execWord_of_legal s hdecode] at hexec
    exact exec_keeps_inv h hexec
  | illegal why =>
    rw [execWord_of_illegal s hdecode] at hexec
    obtain rfl := Host.Outcome.next.inj hexec
    exact h

/-! ### A step with no request -/

theorem step_of_idle {s : State} (h : s.inputs = []) : step s = .next s := by
  rw [step, h, idle]

theorem step_of_rst {s : State} {f : Option Request} {rest : List Input} (h : s.inputs = .rst f :: rest) :
    step s = .next (s.takeReset rest) := by
  rw [step, h]

/-- Settles O18: by what the step takes: nothing, a request, or `rst`. -/
theorem stepKeepsInvariant : Obligations.StepKeepsInvariant := by
  intro s t hinv hstep
  match hinputs : s.inputs with
  | [] =>
    obtain rfl := Host.Outcome.next.inj (hstep.symm.trans (step_of_idle hinputs))
    exact hinv
  | .request r :: rest =>
    rw [step_of_request hinputs] at hstep
    exact execWord_keeps_inv (s := s.accept r.wdata rest) hinv hstep
  | .rst f :: rest =>
    obtain rfl := Host.Outcome.next.inj (hstep.symm.trans (step_of_rst hinputs))
    exact Engine.resetAt_inv _

/-- Settles O10: with no input the step is `idle`. -/
theorem idleKeepsState : Obligations.IdleKeepsState := fun _ => step_of_idle

/-- Settles O9: the step takes the reset state. -/
theorem resetInputUnconfigures : Obligations.ResetInputUnconfigures :=
  fun _ _ _ hinputs => ⟨_, step_of_rst hinputs, rfl, rfl, rfl, rfl, rfl, rfl⟩

/-- Settles O17: the reset state has no codec. -/
theorem resetIsUnconfigured : Obligations.ResetIsUnconfigured :=
  ⟨rfl, rfl, rfl, rfl, rfl, Engine.resetAt_inv 0⟩

/-! ### CFG (R75) -/

/-- Entries past the end of the list stay (R75, U2). -/
theorem getElem_overwrite_of_le {xs : List Data} {j : Nat} (old : Vector Data 7) (hj : j < 7) (h : xs.length ≤ j) :
    (overwrite xs old)[j] = old[j] := by
  rw [getElem_overwrite, List.getD_eq_default _ _ h]

/-- Settles O20: CFG installs the codec over the first entries of the table and touches nothing else. -/
theorem cfgConfigures : Obligations.CfgConfigures := by
  intro d b s hlegal
  refine ⟨_, exec_cfg_of_legal s hlegal, s.engine.configure_configured hlegal, rfl, rfl, fun j hj hlen => ?_⟩
  exact ⟨getElem_overwrite_of_le _ hj hlen, getElem_overwrite_of_le _ hj ((tables_lshift_length _ _).trans_le hlen),
    getElem_overwrite_of_le _ hj ((tables_rshift_length _ _).trans_le hlen)⟩

/-! ### The writers of V and C (R20) -/

theorem Instr.Writes.v_eq_or {i : Instr} {e f : Engine} (h : Instr.Writes e f i) :
    f.v = e.v ∨ (∃ k, i = .setv k) ∨ i = .unpack ∨ i = .sunpack := by
  cases i with
  | cfg d b => exact .inl (h ▸ rfl)
  | pack | spack | setc =>
    obtain ⟨c, rfl⟩ := h
    exact .inl rfl
  | unpack => exact .inr (.inr (.inl rfl))
  | sunpack => exact .inr (.inr (.inr rfl))
  | setv k => exact .inr (.inl ⟨k, rfl⟩)
  | getv | getc | rdcfg | rdt => exact h.elim

theorem Instr.Writes.c_eq_or {i : Instr} {e f : Engine} (h : Instr.Writes e f i) :
    f.c = e.c ∨ i = .setc ∨ (∃ n, i = .pack n) ∨ ∃ n, i = .spack n := by
  cases i with
  | cfg d b => exact .inl (h ▸ rfl)
  | pack n => exact .inr (.inr (.inl ⟨n, rfl⟩))
  | spack n => exact .inr (.inr (.inr ⟨n, rfl⟩))
  | setc => exact .inr (.inl rfl)
  | unpack | sunpack =>
    obtain ⟨g, rfl⟩ := h
    exact .inl rfl
  | setv k =>
    obtain ⟨x, rfl⟩ := h
    exact .inl rfl
  | getv | getc | rdcfg | rdt => exact h.elim

/-- Settles O22: the configuration by `exec_sameConfig_or_configure`, V and C by the writes a command may make. -/
theorem eachRegisterHasItsWriters : Obligations.EachRegisterHasItsWriters := by
  intro i s t hexec
  have hconfig : SameConfig s.engine t.engine ∨ ∃ d b, i = .cfg d b ∧ LegalPair d.toNat b.toNat :=
    (exec_sameConfig_or_configure hexec).imp_right fun ⟨d, b, hi, hlegal, _⟩ => ⟨d, b, hi, hlegal⟩
  obtain ⟨e, st, x, hanswer, rfl | hwrites⟩ := exec_answersAs i s
  all_goals obtain rfl := Host.Outcome.next.inj (hexec.symm.trans hanswer)
  · exact ⟨hconfig, .inl rfl, .inl rfl⟩
  · exact ⟨hconfig, hwrites.v_eq_or, hwrites.c_eq_or⟩

/-! ### RDT (R89) -/

/-- RDT of an entry below NSTEPS answers it. -/
theorem exec_rdt_getElem {s : State} (sel : TableArray) {j : Byte} (hv : s.engine.valid = true)
    (hj : j.toNat < s.engine.nsteps.toNat) (hj7 : j.toNat < 7) :
    exec (.rdt sel j) s = .next (s.answer s.engine .ok (s.engine.array sel)[j.toNat]) := by
  change execRdt sel j s = _
  rw [execRdt, whenConfigured_of_valid _ hv, dif_neg (Nat.not_le.mpr hj), respond_next]

/-- Settles O26: below NSTEPS the registers hold the table of (d, b). -/
theorem rdtReadsTable : Obligations.RdtReadsTable := by
  intro s d b j h hj
  obtain ⟨-, hv, -, -, hn, hm, hl, hr⟩ := h
  rw [← hn] at hj
  have hj7 : j.toNat < 7 := hj.trans_le (Nat.le_of_lt_succ s.engine.nsteps.isLt)
  exact ⟨_, _, _, getElem?_of_take_eq hm hj hj7, getElem?_of_take_eq hl hj hj7, getElem?_of_take_eq hr hj hj7,
    exec_rdt_getElem .mask hv hj hj7, exec_rdt_getElem .lshift hv hj hj7, exec_rdt_getElem .rshift hv hj hj7⟩

end Sys2Proof.Machine
end

section
/-! R55, R64 and R153: what a response depends on, and the statuses a command may end with. -/

namespace Sys2Proof.Machine

/-! ### Statuses -/

theorem mayEnd_ok (i : Instr) : mayEnd i .ok = true := by cases i <;> rfl

/-- Every way to fail is allowed by the table of R153. -/
theorem Failure.mayEnd {e : Engine} {i : Instr} {st : Status} {x : Data} (h : Failure e i st x) :
    mayEnd i st = true := by
  cases h with
  | noCodec hneeds => cases hneeds <;> rfl
  | illegalPair | packCount | packValue | spackValue | spackCount | tableIndex => rfl

/-- Settles O15: a command fails in a listed way or ends with OK. -/
theorem statusesOfEachCommand : Obligations.StatusesOfEachCommand := by
  intro i s
  obtain ⟨st, x, hfail⟩ | ⟨e, x, hok⟩ := exec_fails_or_succeeds i s
  · exact ⟨_, st, x, hfail.failsWith, hfail.mayEnd⟩
  · exact ⟨e, .ok, x, hok, mayEnd_ok i⟩

/-- The statuses in the order of their numbers (R145). -/
def statusAt (n : Nat) : Status :=
  [.ok, .invalidConfiguration, .dimensionMismatch, .valueOutOfRange, .signedValueOutOfRange, .notConfigured,
    .illegalCommand, .tableIndexOutOfRange].getD n .ok

theorem statusAt_code (st : Status) : statusAt st.code.toNat = st := by cases st <;> rfl

/-- Settles O16: a status is read back from its number. -/
theorem statusNumbersAreZeroToSeven : Obligations.StatusNumbersAreZeroToSeven := by
  refine ⟨fun st => by cases st <;> decide, fun st su h => ?_, by decide⟩
  rw [← statusAt_code st, h, statusAt_code]

/-! ### What a response depends on -/

/-- Two results are one response and one new engine, each put into its own state. -/
def AnswersAlike (r r' : Result) (s s' : State) : Prop :=
  ∃ e st x, r = .next (s.answer e st x) ∧ r' = .next (s'.answer e st x)

theorem answersAlike_raise {s s' : State} (h : s'.engine = s.engine) (st : Status) (x : Data) :
    AnswersAlike (raise st x s) (raise st x s') s s' :=
  ⟨s.engine, st, x, raise_next st x s, h ▸ raise_next st x s'⟩

theorem answersAlike_respond (x : Data) (e : Engine) (s s' : State) :
    AnswersAlike (respond x e s) (respond x e s') s s' :=
  ⟨e, .ok, x, rfl, rfl⟩

theorem answersAlike_whenConfigured {s s' : State} {r r' : Result} (hengine : s'.engine = s.engine)
    (h : AnswersAlike r r' s s') : AnswersAlike (whenConfigured s r) (whenConfigured s' r') s s' := by
  rw [whenConfigured, whenConfigured, hengine]
  split
  · exact h
  · exact answersAlike_raise hengine _ _

/-- The commands that read WDATA (R64). -/
def readsWdata : Instr → Bool
  | .setv _ | .setc => true
  | _ => false

/-- A command reads the engine, and WDATA if it is SETV or SETC, and nothing else of the state. -/
theorem exec_answersAlike {i : Instr} {s s' : State} (hengine : s'.engine = s.engine)
    (hwdata : readsWdata i = true → s'.wdata = s.wdata) : AnswersAlike (exec i s) (exec i s') s s' := by
  cases i with
  | cfg d b =>
    change AnswersAlike (execCfg d b s) (execCfg d b s') s s'
    rw [execCfg, execCfg, hengine]
    split
    · exact answersAlike_raise hengine _ _
    · exact answersAlike_respond _ _ _ _
  | pack | spack =>
    refine answersAlike_whenConfigured hengine ?_
    rw [hengine]
    split
    · exact answersAlike_raise hengine _ _
    · split
      · exact answersAlike_raise hengine _ _
      · exact answersAlike_respond _ _ _ _
  | unpack | sunpack =>
    refine answersAlike_whenConfigured hengine ?_
    rw [hengine]
    exact answersAlike_respond _ _ _ _
  | setv | setc =>
    change AnswersAlike (respond _ _ s) (respond _ _ s') s s'
    rw [hengine, hwdata rfl]
    exact answersAlike_respond _ _ _ _
  | getv | getc | rdcfg =>
    change AnswersAlike (respond _ _ s) (respond _ _ s') s s'
    rw [hengine]
    exact answersAlike_respond _ _ _ _
  | rdt sel j =>
    refine answersAlike_whenConfigured hengine ?_
    simp only [hengine]
    split
    · exact answersAlike_raise hengine _ _
    · exact answersAlike_respond _ _ _ _

/-- Settles O13: a command other than SETV and SETC reads the engine only. -/
theorem onlySetvSetcReadWdata : Obligations.OnlySetvSetcReadWdata := by
  intro i hsetv hsetc s x
  have hreads : readsWdata i = false := by
    cases i with
    | setv k => exact absurd rfl (hsetv k)
    | setc => exact absurd rfl hsetc
    | cfg | pack | unpack | spack | sunpack | getv | getc | rdcfg | rdt => rfl
  exact exec_answersAlike (s' := { s with wdata := x }) rfl fun h => absurd (hreads.symm.trans h) Bool.false_ne_true

/-- Settles O14: decoding reads the word, and a command the engine and WDATA. -/
theorem responseDependsOnEngineOnly : Obligations.ResponseDependsOnEngineOnly := by
  intro w s s' hengine hwdata
  cases hdecode : decode w with
  | legal i =>
    rw [execWord_of_legal s hdecode, execWord_of_legal s' hdecode]
    exact exec_answersAlike hengine fun _ => hwdata
  | illegal why =>
    have hend := execWord_of_illegal s' hdecode
    rw [hengine] at hend
    exact ⟨_, _, _, execWord_of_illegal s hdecode, hend⟩

/-! ### The transfers, one by one (R130 to R133) -/

/-- Settles O39: the write of one lane, read lane by lane. -/
theorem setvWritesOneLane : Obligations.SetvWritesOneLane := by
  intro i s
  refine ⟨_, exec_setv i s, ?same, fun k hk => ?other, sameCode_setLane s.engine i s.wdata⟩
  case same => rw [Engine.lane_setLane, if_pos rfl]
  case other => rw [Engine.lane_setLane, if_neg hk.symm]

/-- Settles O40: the lane is read from its register. -/
theorem getvReturnsLane : Obligations.GetvReturnsLane := exec_getv

/-- Settles O41: the code register is written, or read. -/
theorem setcAndGetcMoveTheCode : Obligations.SetcAndGetcMoveTheCode := fun s => ⟨exec_setc s, exec_getc s⟩

end Sys2Proof.Machine
end

section
/-! R45 and R166: what a list of requests does to an engine. `Serves e rs f as` says it for every state of the host's
side, so that lists of requests compose. -/

namespace Sys2Proof.Machine

/-- Requests `rs`, presented to an engine `e`, leave it as `f` and are answered `as`, whatever waits behind them. -/
def Serves (e : Engine) (rs : List Request) (f : Engine) (as : List Response) : Prop :=
  ∀ (s : State) (rest : List Input), s.engine = e → s.inputs = asInputs rs ++ rest →
    ∃ t, Runs rs.length s t ∧ t.engine = f ∧ t.inputs = rest ∧ t.resets = s.resets ∧ t.responses = s.responses ++ as

theorem Serves.nil (e : Engine) : Serves e [] e [] := fun s _ he hinputs =>
  ⟨s, runs_zero s, he, hinputs, rfl, (List.append_nil _).symm⟩

theorem Serves.append {e f g : Engine} {rs qs : List Request} {as bs : List Response} (h : Serves e rs f as)
    (h' : Serves f qs g bs) : Serves e (rs ++ qs) g (as ++ bs) := by
  intro s rest he hinputs
  rw [asInputs, List.map_append, List.append_assoc] at hinputs
  obtain ⟨t, hrun, ht, hwait, hresets, hresp⟩ := h s _ he hinputs
  obtain ⟨u, hrun', hu, hwait', hresets', hresp'⟩ := h' t rest ht hwait
  refine ⟨u, ?_, hu, hwait', hresets'.trans hresets, ?_⟩
  · rw [List.length_append]
    exact runs_append hrun hrun'
  · rw [hresp', hresp, List.append_assoc]

/-- One request, by what its word does to every state with this engine and this WDATA. -/
theorem Serves.request {e f : Engine} {r : Request} {st : Status} {x : Data}
    (h : ∀ s : State, s.engine = e → s.wdata = r.wdata → execWord r.cmd s = .next (s.answer f st x)) :
    Serves e [r] f [⟨st, x⟩] := by
  intro s rest he hinputs
  have hstep := (step_of_request hinputs).trans (h (s.accept r.wdata rest) he rfl)
  exact ⟨_, runs_one hstep, rfl, rfl, rfl, rfl⟩

/-- One request for a command. -/
theorem Serves.command {e f : Engine} {i : Instr} {w x : Data} {st : Status} (hlegal : decode (encode i) = .legal i)
    (h : ∀ s : State, s.engine = e → s.wdata = w → exec i s = .next (s.answer f st x)) :
    Serves e [requestOf i w] f [⟨st, x⟩] :=
  .request fun s he hw => (execWord_of_legal s hlegal).trans (h s he hw)

/-- Any request is served: its response depends on the engine and WDATA only. -/
theorem exists_serves_request (e : Engine) (r : Request) : ∃ f st x, Serves e [r] f [⟨st, x⟩] := by
  obtain ⟨f, st, x, hexec, -⟩ := responseDependsOnEngineOnly r.cmd ⟨e, [], r.wdata, [], 0⟩ _ rfl rfl
  refine ⟨f, st, x, .request fun s he hw => ?_⟩
  obtain ⟨f', st', x', hexec', hs⟩ := responseDependsOnEngineOnly r.cmd ⟨e, [], r.wdata, [], 0⟩ s he hw
  obtain ⟨rfl, rfl, rfl⟩ := State.answer_inj.mp (Host.Outcome.next.inj (hexec.symm.trans hexec'))
  exact hs

/-- Any requests are served, with one response each. -/
theorem exists_serves (e : Engine) (rs : List Request) : ∃ f as, as.length = rs.length ∧ Serves e rs f as := by
  induction rs generalizing e with
  | nil => exact ⟨e, [], rfl, .nil e⟩
  | cons r rs ih =>
    obtain ⟨f, st, x, hfirst⟩ := exists_serves_request e r
    obtain ⟨g, as, hlen, hrest⟩ := ih f
    exact ⟨g, ⟨st, x⟩ :: as, congrArg Nat.succ hlen, hfirst.append hrest⟩

/-- Settles O11: both lists are served, the second from the engine the first leaves. -/
theorem requestsAnsweredInOrder : Obligations.RequestsAnsweredInOrder := by
  intro rs qs rest s hinputs
  rw [asInputs, List.map_append, List.append_assoc] at hinputs
  obtain ⟨f, as, hlen, hserves⟩ := exists_serves s.engine rs
  obtain ⟨t, hrun, ht, hwait, hresets, hresp⟩ := hserves s _ rfl hinputs
  obtain ⟨g, bs, hlen', hserves'⟩ := exists_serves f qs
  obtain ⟨u, hrun', -, hwait', hresets', hresp'⟩ := hserves' t rest ht hwait
  exact ⟨t, u, hrun, hrun', runs_append hrun hrun', hwait, hwait', hresets'.trans hresets, as, bs, hresp,
    by rw [hresp', hresp, List.append_assoc], hlen, hlen'⟩

end Sys2Proof.Machine
end

section
/-! R103: the code of a PACK as a sum. The spread lanes share no bit, so their OR adds them. -/

namespace Sys2Proof.Machine

/-! ### The first lanes, one more at a time -/

theorem Engine.lanes_succ (e : Engine) (k : Fin 64) : e.lanes (k.val + 1) = e.lanes k.val ++ [e.lane k] := by
  have hk : k.val < e.v.toList.length := by rw [Vector.length_toList]; exact k.isLt
  rw [Engine.lanes, List.take_add_one, List.getElem?_eq_getElem hk]
  rfl

theorem Engine.interleave_lanes_succ (e : Engine) (k : Fin 64) :
    e.interleave (e.lanes (k.val + 1)) = e.interleave (e.lanes k.val) ||| (e.spread (e.lane k) <<< k.val) := by
  have hlen : (e.lanes k.val).length = k.val := by rw [e.length_lanes]; omega
  rw [e.lanes_succ, Engine.interleave, List.zipIdx_append, List.foldl_append, hlen, Nat.zero_add]
  rfl

/-- The spread lanes below k have no bit in the place of lane k. -/
theorem Engine.Configured.interleave_lanes_and {e : Engine} {d b : Nat} (h : e.Configured d b) {k : Fin 64}
    (hk : k.val < d) : e.interleave (e.lanes k.val) &&& (e.spread (e.lane k) <<< k.val) = 0#64 := by
  refine BitVec.eq_of_getLsbD_eq fun p hp => ?_
  rw [BitVec.getLsbD_and, BitVec.getLsbD_zero, Bool.eq_false_iff, ne_eq, Bool.and_eq_true,
    e.getLsbD_interleave_iff _ hp, BitVec.getLsbD_shiftLeft, Bool.and_eq_true, Bool.and_eq_true]
  rintro ⟨⟨i, x, hx, hle, hbit⟩, ⟨-, hkp⟩, hkbit⟩
  have hi : i < k.val := by
    have hlen := (List.getElem?_eq_some_iff.mp hx).1
    rw [e.length_lanes] at hlen
    omega
  rw [h.getLsbD_spread, Bool.and_eq_true, Bool.and_eq_true, decide_eq_true_iff] at hbit hkbit
  obtain ⟨⟨himod, -⟩, -⟩ := hbit
  obtain ⟨⟨hkmod, -⟩, -⟩ := hkbit
  have hieq := (sub_mod_eq_zero_iff (hi.trans hk)).mp ⟨hle, himod⟩
  have hkeq := (sub_mod_eq_zero_iff hk).mp ⟨by simpa using hkp, hkmod⟩
  omega

/-- What lane i adds to the code of the first n lanes. -/
def Engine.summand (e : Engine) (n : Nat) (i : Fin 64) : Nat :=
  if i.val < n then (e.spread (e.lane i) <<< i.val).toNat else 0

theorem Engine.summand_succ (e : Engine) (k i : Fin 64) :
    e.summand (k.val + 1) i = e.summand k.val i + if i = k then (e.spread (e.lane k) <<< k.val).toNat else 0 := by
  unfold Engine.summand
  obtain rfl | hne := eq_or_ne i k
  · rw [if_pos (Nat.lt_succ_self _), if_neg (lt_irrefl _), if_pos rfl, Nat.zero_add]
  · have hval : i.val ≠ k.val := Fin.val_ne_of_ne hne
    rw [if_neg hne, Nat.add_zero]
    exact if_congr (by omega) rfl rfl

theorem Engine.Configured.toNat_interleave_lanes {e : Engine} {d b n : Nat} (h : e.Configured d b) (hn : n ≤ d) :
    (e.interleave (e.lanes n)).toNat = ∑ i, e.summand n i := by
  induction n with
  | zero => simp [Engine.interleave, Engine.lanes, Engine.summand]
  | succ n ih =>
    have hn64 : n < 64 := lt_of_lt_of_le hn h.1.fst_le
    have hand := h.interleave_lanes_and (k := ⟨n, hn64⟩) hn
    rw [e.interleave_lanes_succ ⟨n, hn64⟩, ← BitVec.add_eq_or_of_and_eq_zero _ _ hand,
      BitVec.toNat_add_of_and_eq_zero hand, ih (Nat.le_of_succ_le hn)]
    simp only [e.summand_succ ⟨n, hn64⟩, Finset.sum_add_distrib, Finset.sum_ite_eq', Finset.mem_univ, if_true]

/-- Settles O29: the bits of the code, and its value as the sum of the spread lanes. -/
theorem packInterleavesBits : Obligations.PackInterleavesBits := by
  intro s n d b h hn hrange
  obtain ⟨-, -, hd, -⟩ := id h
  refine ⟨s.engine.packedCode, exec_pack_of_inRange h hn hrange, fun i k hi hk => h.getLsbD_packedCode_mul_add hi hk,
    fun p hp => h.getLsbD_packedCode_of_le hp, ?_⟩
  rw [Engine.packedCode, hd, h.toNat_interleave_lanes le_rfl, Fin.sum_univ_def]
  rfl

end Sys2Proof.Machine
end

section
/-! Lane registers staged from a list of values, and R107's bijection: the lanes of a code are the one tuple in range
that packs to it. -/

namespace Sys2Proof.Machine

/-! ### Staged lanes -/

theorem Engine.lane_staged_of_lt (e : Engine) {xs : List Data} {k : Fin 64} (hk : k.val < xs.length) :
    (e.staged xs).lane k = xs[k.val] := by
  rw [Engine.lane_staged, List.getD_eq_getElem _ _ hk]

theorem Engine.lanes_staged (e : Engine) {xs : List Data} (hlen : xs.length ≤ 64) :
    (e.staged xs).lanes xs.length = xs := by
  refine List.ext_getElem ?_ fun i h₁ h₂ => ?_
  · rw [Engine.length_lanes]; omega
  · rw [Engine.getElem_lanes, Engine.lane_staged_of_lt]

theorem Engine.Configured.staged {e : Engine} {d b : Nat} (h : e.Configured d b) (xs : List Data) :
    (e.staged xs).Configured d b := h

theorem Engine.Configured.setCode {e : Engine} {d b : Nat} (h : e.Configured d b) (c : Data) :
    (e.setCode c).Configured d b := h

/-- A property of all the values staged is one of the lanes that hold them. -/
theorem Engine.forall_lane_staged (e : Engine) {xs : List Data} {p : Data → Prop} (h : ∀ x ∈ xs, p x) {k : Fin 64}
    (hk : k.val < xs.length) : p ((e.staged xs).lane k) := by
  rw [e.lane_staged_of_lt hk]
  exact h _ (List.getElem_mem hk)

/-- Staging the first D values of `f` is writing the lanes. -/
theorem Engine.staged_map_range (e : Engine) (f : Nat → Data) :
    e.staged ((List.range e.d.toNat).map f) = e.writeLanes f := by
  have hv : (e.staged ((List.range e.d.toNat).map f)).v = (e.writeLanes f).v := Engine.v_ext fun k => by
    rw [Engine.lane_writeLanes]
    split
    case isTrue hk => rw [Engine.lane_staged_of_lt _ (by simpa using hk), List.getElem_map, List.getElem_range]
    case isFalse hk => rw [Engine.lane_staged, List.getD_eq_default _ _ (by simpa using hk)]
  exact congrArg (fun v => { e with v := v }) hv

/-! ### The bijection -/

theorem toNat_countByte {d : Nat} (hd : d ≤ 64) : (countByte d).toNat = d := by
  rw [countByte, BitVec.toNat_ofNat, Nat.mod_eq_of_lt (by omega)]

theorem Engine.Configured.lanesInRange_staged {e : Engine} {d b : Nat} (h : e.Configured d b) {xs : List Data}
    (hxs : ∀ x ∈ xs, x.toNat < 2 ^ b) : (e.staged xs).LanesInRange xs.length := by
  obtain ⟨-, -, -, rfl, -⟩ := h
  exact fun k hk => e.forall_lane_staged (p := fun x => x.toNat < 2 ^ e.b.toNat) hxs hk

/-- The lanes of a code below 2^(B*D), staged, pack to it. -/
theorem Engine.Configured.packedCode_staged_codeLane {e : Engine} {d b : Nat} (h : e.Configured d b) {code : Data}
    (hcode : code.toNat < 2 ^ (b * d)) :
    (e.staged ((List.range d).map (e.setCode code).codeLane)).packedCode = code := by
  have hcoded := h.setCode code
  obtain ⟨-, -, rfl, -⟩ := id h
  rw [e.staged_map_range]
  exact BitVec.eq_of_toNat_eq <| hcoded.toNat_packedCode_writeLanes_codeLane.trans (Nat.mod_eq_of_lt hcode)

/-- A tuple in range is the lanes of its code. -/
theorem Engine.Configured.eq_map_codeLane {e : Engine} {d b : Nat} (h : e.Configured d b) {xs : List Data}
    (hlen : xs.length = d) (hxs : ∀ x ∈ xs, x.toNat < 2 ^ b) :
    xs = (List.range d).map (e.setCode (e.staged xs).packedCode).codeLane := by
  subst hlen
  refine List.ext_getElem (by simp) fun i hi _ => ?_
  have hi64 : i < 64 := hi.trans_le h.1.fst_le
  rw [List.getElem_map, List.getElem_range, ← e.lane_staged_of_lt (k := ⟨i, hi64⟩) hi]
  exact ((h.staged xs).codeLane_of_packedCode (h.setCode (e.staged xs).packedCode) rfl
    (h.lanesInRange_staged hxs) hi).symm

/-- Settles O30: the lanes of the code are a tuple that packs to it, and any such tuple is the lanes of the code. -/
theorem packIsBijection : Obligations.PackIsBijection := by
  intro s d b h code hcode
  have hpack {xs : List Data} (hlen : xs.length = d) (hxs : ∀ x ∈ xs, x.toNat < 2 ^ b) :=
    exec_pack_of_inRange (s := { s with engine := s.engine.staged xs }) (h.staged xs)
      (toNat_countByte h.1.fst_le) (hlen ▸ h.lanesInRange_staged hxs)
  have hlanes : ∀ x ∈ (List.range d).map (s.engine.setCode code).codeLane, x.toNat < 2 ^ b := fun x hx => by
    obtain ⟨i, -, rfl⟩ := List.mem_map.mp hx
    exact (h.setCode code).toNat_codeLane_lt i
  have hlength : ((List.range d).map (s.engine.setCode code).codeLane).length = d := by
    rw [List.length_map, List.length_range]
  refine ⟨_, ⟨hlength, hlanes, ?packs⟩, fun xs hxs => ?unique⟩
  case packs =>
    have hexec := hpack hlength hlanes
    rw [h.packedCode_staged_codeLane hcode] at hexec
    exact hexec
  case unique =>
    obtain ⟨hlen, hinRange, hexec⟩ := hxs
    obtain ⟨-, -, rfl⟩ := State.answer_inj.mp (Host.Outcome.next.inj (hexec.symm.trans (hpack hlen hinRange)))
    exact h.eq_map_codeLane hlen hinRange

end Sys2Proof.Machine
end

section
/-! R117, R119 and R121: the range of SPACK, and the bits of its code and of the lanes that SUNPACK reads. -/

namespace Sys2Proof.Machine

/-- Settles O34: a strict bound on an integer is a bound one further in. -/
theorem signedRangeIsSymmetric : Obligations.SignedRangeIsSymmetric := by
  intro b x _ _
  refine ⟨?accepted, ?boundary⟩
  case accepted =>
    rw [signedOutOfRange_false]
    omega
  case boundary =>
    rw [signedOutOfRange_true]
    exact fun hx => hx.imp Eq.ge Eq.le

theorem getLsbD_signEnc_of_lt {b k : Nat} {sv : Int} (hb : b ≤ 64) (h : sv.natAbs < 2 ^ (b - 1)) (hk : k < b - 1) :
    (signEnc b sv).getLsbD k = sv.natAbs.testBit k := by
  rw [← toNat_signEnc_mod hb h, Nat.testBit_mod_two_pow, decide_eq_true hk, Bool.true_and, BitVec.testBit_toNat]

/-- Settles O36: the lanes of the code are the encodings, whose bits are sign and magnitude. -/
theorem spackInterleavesSignMagnitude : Obligations.SpackInterleavesSignMagnitude := by
  intro s n d b h hn hrange
  obtain ⟨⟨-, hb, -⟩, -, -, rfl, -⟩ := id h
  have hb64 := h.1.snd_le
  refine ⟨_, exec_spack_of_inRange h hn hrange, fun i hi => ?_,
    fun p hp => h.signEncoded.getLsbD_packedCode_of_le hp⟩
  have hbit {k : Nat} := h.signEncoded.getLsbD_packedCode_mul_add (k := k) hi
  have hmag := hrange.natAbs_lt hi
  rw [Engine.lane_signEncoded] at hbit
  refine ⟨(hbit (Nat.sub_one_lt_of_lt hb)).trans (getLsbD_signEnc hb64 hmag), fun k hk => ?_⟩
  exact (hbit (by omega)).trans (getLsbD_signEnc_of_lt hb64 hmag hk)

/-- R121: lane i of the code, read as sign and magnitude. -/
theorem Engine.Configured.exists_magnitude_codeLane {e : Engine} {d b : Nat} (h : e.Configured d b) (i : Nat) :
    ∃ mag : Nat, mag < 2 ^ (b - 1) ∧ (∀ k, k < b - 1 → mag.testBit k = e.c.getLsbD (k * d + i)) ∧
      (signDec b (e.codeLane i)).toInt = if e.c.getLsbD ((b - 1) * d + i) then -(mag : Int) else (mag : Int) := by
  obtain ⟨-, hb, -⟩ := h.1
  refine ⟨(e.codeLane i).toNat % 2 ^ (b - 1), Nat.mod_lt _ (Nat.two_pow_pos _), fun k hk => ?bits, ?value⟩
  case bits =>
    rw [Nat.testBit_mod_two_pow, decide_eq_true hk, Bool.true_and, BitVec.testBit_toNat, h.getLsbD_codeLane,
      decide_eq_true (by omega), Bool.true_and]
  case value =>
    rw [toInt_signDec h.1.snd_le, signedValue, h.getLsbD_codeLane, decide_eq_true (Nat.sub_one_lt_of_lt hb),
      Bool.true_and]

/-- Settles O37: SUNPACK writes the decoded lanes of the code. -/
theorem sunpackDecodesSignMagnitude : Obligations.SunpackDecodesSignMagnitude := by
  intro s d b h
  obtain ⟨-, hv, hd, -⟩ := id h
  refine ⟨_, exec_sunpack_of_valid hv, fun i hi => ?lanes, fun i hi => ?others, sameCode_writeLanes _ _⟩
  case lanes =>
    rw [h.lane_sunpacked hi]
    exact h.exists_magnitude_codeLane i.val
  case others => rw [Engine.sunpacked, Engine.lane_writeLanes, if_neg (by omega)]

end Sys2Proof.Machine
end

section
/-! R136 and R137: the host's sequences, served request by request: lanes staged one by one in any order, the code set,
and the lanes read out. -/

namespace Sys2Proof.Machine

/-! ### Staging, in any order (R136) -/

/-- `setv j, x` for each (x, j) of a list, in its order. -/
def setvRequests (order : List (Data × Nat)) : List Request :=
  order.map fun p => ⟨commandWord Opcode.setv.byte (BitVec.ofNat 8 p.2) 0, p.1⟩

theorem stage_eq_setvRequests (xs : List Data) : stage xs = setvRequests xs.zipIdx := rfl

/-- Configuration, code and lanes are the whole engine. -/
theorem Engine.ext_of_sameCode {e f : Engine} (h : SameCode e f) (hlanes : ∀ k : Fin 64, f.lane k = e.lane k) :
    f = e := by
  obtain ⟨⟨hv, hd, hb, hn, hm, hl, hr⟩, hc⟩ := h
  cases e
  cases f
  exact (Engine.mk.injEq ..).mpr ⟨hv, hd, hb, hn, hm, hl, hr, Engine.v_ext hlanes, hc⟩

/-- `f` is `e` with x in lane j for each (x, j) of the list. -/
def Stored (order : List (Data × Nat)) (e f : Engine) : Prop :=
  SameCode e f ∧ ∀ k : Fin 64,
    (∀ x, (x, k.val) ∈ order → f.lane k = x) ∧ ((∀ p ∈ order, p.2 ≠ k.val) → f.lane k = e.lane k)

theorem Stored.nil (e : Engine) : Stored [] e e := ⟨.refl e, fun _ => ⟨nofun, fun _ => rfl⟩⟩

/-- A lane that no later pair names keeps what is stored in it first. -/
theorem Stored.cons {e f : Engine} {order : List (Data × Nat)} {x : Data} {j : Fin 64}
    (hnew : j.val ∉ order.map Prod.snd) (h : Stored order (e.setLane j x) f) : Stored ((x, j.val) :: order) e f := by
  obtain ⟨hsame, hlanes⟩ := h
  refine ⟨(sameCode_setLane e j x).trans hsame, fun k => ⟨fun y hy => ?inList, fun hk => ?notInList⟩⟩
  case inList =>
    obtain heq | hy := List.mem_cons.mp hy
    · obtain ⟨rfl, hkj⟩ := Prod.mk.inj heq
      obtain rfl := Fin.ext hkj
      rw [(hlanes k).2 fun q hq hqk => hnew (List.mem_map.mpr ⟨q, hq, hqk⟩), Engine.lane_setLane, if_pos rfl]
    · exact (hlanes k).1 y hy
  case notInList =>
    obtain ⟨hjk, hk⟩ := List.forall_mem_cons.mp hk
    rw [(hlanes k).2 hk, Engine.lane_setLane, if_neg fun heq => hjk (congrArg Fin.val heq)]

/-- The pairs of a list with its indices, in any order, store what the list stages. -/
theorem Stored.eq_staged {e f : Engine} {xs : List Data} {order : List (Data × Nat)} (h : Stored order e f)
    (hperm : order.Perm xs.zipIdx) : f = e.staged xs := by
  obtain ⟨hsame, hlanes⟩ := h
  refine Engine.ext_of_sameCode (e := e.staged xs) hsame fun k => ?_
  rw [Engine.lane_staged]
  by_cases hk : k.val < xs.length
  · have hmem := hperm.mem_iff.mpr (List.mk_mem_zipIdx_iff_getElem?.mpr (List.getElem?_eq_getElem hk))
    rw [List.getD_eq_getElem _ _ hk]
    exact (hlanes k).1 _ hmem
  · rw [List.getD_eq_default _ _ (Nat.not_lt.mp hk)]
    exact (hlanes k).2 fun p hp heq => hk (heq ▸ List.snd_lt_of_mem_zipIdx (hperm.mem_iff.mp hp))

/-- SETVs to lane registers, each named once, store their data. -/
theorem exists_serves_setvRequests {order : List (Data × Nat)} (hlt : ∀ p ∈ order, p.2 < 64)
    (hnodup : (order.map Prod.snd).Nodup) (e : Engine) :
    ∃ f, Serves e (setvRequests order) f (List.replicate order.length ⟨.ok, 0⟩) ∧ Stored order e f := by
  induction order generalizing e with
  | nil => exact ⟨e, .nil e, .nil e⟩
  | cons p order ih =>
    obtain ⟨hp, hlt⟩ := List.forall_mem_cons.mp hlt
    obtain ⟨hnew, hnodup⟩ := List.nodup_cons.mp hnodup
    have hsetv : Serves e [requestOf (.setv ⟨p.2, hp⟩) p.1] (e.setLane ⟨p.2, hp⟩ p.1) [⟨.ok, 0⟩] :=
      .command (decode_encode_setv _) fun s he hw => by rw [exec_setv, he, hw]
    obtain ⟨f, hserves, hstored⟩ := ih hlt hnodup (e.setLane ⟨p.2, hp⟩ p.1)
    exact ⟨f, hsetv.append hserves, hstored.cons hnew⟩

/-- Staging the values of a list leaves the engine with that list staged, whatever the order. -/
theorem serves_setvRequests {xs : List Data} (hlen : xs.length ≤ 64) {order : List (Data × Nat)}
    (hperm : order.Perm xs.zipIdx) (e : Engine) :
    Serves e (setvRequests order) (e.staged xs) (List.replicate xs.length ⟨.ok, 0⟩) := by
  have hlt : ∀ p ∈ order, p.2 < 64 := fun p hp =>
    (List.snd_lt_of_mem_zipIdx (hperm.mem_iff.mp hp)).trans_le hlen
  have hnodup : (order.map Prod.snd).Nodup := by
    rw [(hperm.map _).nodup_iff, List.zipIdx_map_snd]
    exact List.nodup_range'
  obtain ⟨f, hserves, hstored⟩ := exists_serves_setvRequests hlt hnodup e
  rwa [hstored.eq_staged hperm, hperm.length_eq, List.length_zipIdx] at hserves

theorem serves_stage {xs : List Data} (hlen : xs.length ≤ 64) (e : Engine) :
    Serves e (stage xs) (e.staged xs) (List.replicate xs.length ⟨.ok, 0⟩) := by
  rw [stage_eq_setvRequests]
  exact serves_setvRequests hlen (.refl _) e

/-! ### Reading out (R137) -/

theorem readOut_succ (k : Fin 64) : readOut (k.val + 1) = readOut k.val ++ [requestOf (.getv k) 0] := by
  rw [readOut, List.range_succ, List.map_append]
  rfl

theorem serves_readOut {n : Nat} (hn : n ≤ 64) (e : Engine) :
    Serves e (readOut n) e ((e.lanes n).map (⟨.ok, ·⟩)) := by
  induction n with
  | zero => exact .nil e
  | succ n ih =>
    have hgetv : Serves e [requestOf (.getv ⟨n, hn⟩) 0] e [⟨.ok, e.lane ⟨n, hn⟩⟩] :=
      .command (decode_encode_getv _) fun s he _ => by rw [exec_getv, he]
    have hread := (ih (Nat.le_of_succ_le hn)).append hgetv
    rw [← readOut_succ ⟨n, hn⟩] at hread
    rwa [e.lanes_succ ⟨n, hn⟩, List.map_append]

/-! ### The other requests of the sequences -/

theorem serves_setc (e : Engine) (code : Data) :
    Serves e [requestOf .setc code] (e.setCode code) [⟨.ok, 0⟩] :=
  .command (by decide) fun s he hw => by rw [exec_setc, he, hw]

theorem serves_unpack {e : Engine} (hv : e.valid = true) :
    Serves e [requestOf .unpack 0] (e.writeLanes e.codeLane) [⟨.ok, 0⟩] :=
  .command (by decide) fun _ he _ => by subst he; exact exec_unpack_of_valid hv

theorem serves_sunpack {e : Engine} (hv : e.valid = true) :
    Serves e [requestOf .sunpack 0] e.sunpacked [⟨.ok, 0⟩] :=
  .command (by decide) fun _ he _ => by subst he; exact exec_sunpack_of_valid hv

theorem serves_pack {e : Engine} {d b : Nat} (h : e.Configured d b) (hrange : e.LanesInRange d) :
    Serves e [requestOf (.pack (countByte d)) 0] (e.setCode e.packedCode) [⟨.ok, e.packedCode⟩] := by
  have hcount := toNat_countByte h.1.fst_le
  refine .command (decode_encode_pack (hcount.trans_le h.1.fst_le)) fun _ he _ => ?_
  subst he
  exact exec_pack_of_inRange h hcount hrange

theorem serves_spack {e : Engine} {d b : Nat} (h : e.Configured d b) (hrange : e.LanesInSignedRange d) :
    Serves e [requestOf (.spack (countByte d)) 0] (e.setCode e.signEncoded.packedCode)
      [⟨.ok, e.signEncoded.packedCode⟩] := by
  have hcount := toNat_countByte h.1.fst_le
  refine .command (decode_encode_spack (hcount.trans_le h.1.fst_le)) fun _ he _ => ?_
  subst he
  exact exec_spack_of_inRange h hcount hrange

/-- Construct(d, b) of a legal pair, on any engine, gives one with its codec. -/
theorem exists_serves_construct {d b : Nat} (h : LegalPair d b) (e : Engine) :
    ∃ cs f, constructSequence d b = some cs ∧ f.Configured d b ∧ Serves e cs f [⟨.ok, 0⟩] := by
  have hd := h.fst_le
  have hb := h.snd_le
  have hd' : (BitVec.ofNat 8 d).toNat = d := toNat_countByte hd
  have hb' : (BitVec.ofNat 8 b).toNat = b := toNat_countByte hb
  have hlegal : LegalPair (BitVec.ofNat 8 d).toNat (BitVec.ofNat 8 b).toNat := by rwa [hd', hb']
  have hconf := e.configure_configured hlegal
  rw [hd', hb'] at hconf
  refine ⟨_, _, if_pos ⟨by omega, by omega⟩, hconf, .command (decode_encode_of_wellFormed rfl) fun s he _ => ?_⟩
  rw [exec_cfg_of_legal s hlegal, he]

end Sys2Proof.Machine
end

section
/-! R137: the host's unpack and sUnpack of any code, on a configured engine. -/

namespace Sys2Proof.Machine

theorem Engine.getD_lanes (e : Engine) {n : Nat} {k : Fin 64} (hk : k.val < n) : (e.lanes n).getD k.val 0 = e.lane k := by
  rw [List.getD_eq_getElem?_getD, e.getElem?_lanes hk, Option.getD_some]

/-- A run over `setc code`, a command that then leaves the engine as `g`, and the reading of D lanes. -/
theorem runs_unpacking {s : State} {rest : List Input} {d : Nat} {code : Data} {u : Instr} {g : Engine} (hd : d ≤ 64)
    (hu : Serves (s.engine.setCode code) [requestOf u 0] g [⟨.ok, 0⟩])
    (hinputs : s.inputs = asInputs (requestOf .setc code :: requestOf u 0 :: readOut d) ++ rest) :
    ∃ t, Runs (d + 2) s t ∧ t.engine = g ∧ t.inputs = rest ∧ (g.lanes d).length = d ∧
      t.responses = s.responses ++ ⟨.ok, 0⟩ :: ⟨.ok, 0⟩ :: (g.lanes d).map (⟨.ok, ·⟩) := by
  obtain ⟨t, hrun, ht, hwait, -, hresp⟩ :=
    ((serves_setc s.engine code).append (hu.append (serves_readOut hd g))) s rest rfl hinputs
  refine ⟨t, ?_, ht, hwait, by rw [g.length_lanes, min_eq_left hd], hresp⟩
  simpa [readOut] using hrun

/-- Settles O54: the lanes read out are those that UNPACK or SUNPACK wrote from the code. -/
theorem hostUnpackReturnsLanesOfCode : Obligations.HostUnpackReturnsLanesOfCode := by
  intro s d b code rest h
  have hcoded := h.setCode code
  have hd64 : d ≤ 64 := h.1.fst_le
  obtain ⟨-, hv, hd, -⟩ := id hcoded
  refine ⟨fun hinputs => ?unpack, fun hinputs => ?sunpack⟩
  case unpack =>
    obtain ⟨t, hrun, ht, hwait, hlen, hresp⟩ := runs_unpacking hd64 (serves_unpack hv) hinputs
    refine ⟨t, _, hrun, hwait, hlen, ht ▸ rfl, hresp, fun i k hi => ?_⟩
    rw [Engine.getD_lanes _ (k := ⟨i, hi.trans_le hd64⟩) hi, Engine.lane_writeLanes, if_pos (hd ▸ hi),
      hcoded.getLsbD_codeLane, Engine.setCode_c]
  case sunpack =>
    obtain ⟨t, hrun, ht, hwait, hlen, hresp⟩ := runs_unpacking hd64 (serves_sunpack hv) hinputs
    refine ⟨t, _, hrun, hwait, hlen, ht ▸ rfl, hresp, fun i hi => ?_⟩
    rw [Engine.getD_lanes _ (k := ⟨i, hi.trans_le hd64⟩) hi, hcoded.lane_sunpacked hi]
    exact hcoded.exists_magnitude_codeLane i

end Sys2Proof.Machine
end

section
/-! R137, R107 and R123: from any state, the values that the host packs come back when it unpacks. -/

namespace Sys2Proof.Machine

/-- A request for `p` writes a code, from which a request for `u` restores the first `d` lanes of `e`. -/
def LanesReturn (e : Engine) (d : Nat) (p u : Instr) : Prop :=
  ∃ code g, Serves e [requestOf p 0] (e.setCode code) [⟨.ok, code⟩] ∧
    Serves (e.setCode code) [requestOf u 0] g [⟨.ok, 0⟩] ∧ ∀ k : Fin 64, k.val < d → g.lane k = e.lane k

theorem lanesReturn_pack_unpack {e : Engine} {d b : Nat} (h : e.Configured d b) (hrange : e.LanesInRange d) :
    LanesReturn e d (.pack (countByte d)) .unpack := by
  have hcoded := h.setCode e.packedCode
  obtain ⟨-, hv, hd, -⟩ := id hcoded
  refine ⟨_, _, serves_pack h hrange, serves_unpack hv, fun k hk => ?_⟩
  rw [Engine.lane_writeLanes, hd, if_pos hk]
  exact h.codeLane_of_packedCode hcoded rfl hrange hk

theorem lanesReturn_spack_sunpack {e : Engine} {d b : Nat} (h : e.Configured d b) (hrange : e.LanesInSignedRange d) :
    LanesReturn e d (.spack (countByte d)) .sunpack := by
  have hcoded := h.setCode e.signEncoded.packedCode
  obtain ⟨-, hv, -⟩ := id hcoded
  refine ⟨_, _, serves_spack h hrange, serves_sunpack hv, fun k hk => ?_⟩
  rw [hcoded.lane_sunpacked hk]
  exact h.signDec_codeLane_of_signEncoded hcoded rfl hrange hk

/-- The host's whole sequence: construct, stage, pack by `p`, unpack by `u`, read out. -/
theorem runs_roundTrip {s : State} {rest : List Input} {d b : Nat} {xs : List Data} {p u : Instr}
    (hlegal : LegalPair d b) (hlen : xs.length = d)
    (hreturn : ∀ e : Engine, e.Configured d b → LanesReturn (e.staged xs) d p u) :
    ∃ cs, constructSequence d b = some cs ∧
      (s.inputs = asInputs (cs ++ (stage xs ++ [requestOf p 0]) ++ requestOf u 0 :: readOut d) ++ rest →
        ∃ t rs, Runs (cs ++ (stage xs ++ [requestOf p 0]) ++ requestOf u 0 :: readOut d).length s t ∧ t.inputs = rest ∧
          rs.length = d + 3 ∧ t.responses = s.responses ++ rs ++ xs.map (⟨.ok, ·⟩)) := by
  have hlen64 : xs.length ≤ 64 := hlen.trans_le hlegal.fst_le
  obtain ⟨cs, e, hcs, hconf, hconstruct⟩ := exists_serves_construct hlegal s.engine
  obtain ⟨code, g, hpack, hunpack, hlanes⟩ := hreturn e hconf
  have hback : g.lanes d = xs := by rw [Engine.lanes_congr hlanes, ← hlen, e.lanes_staged hlen64]
  refine ⟨cs, hcs, fun hinputs => ?_⟩
  have hserves := (hconstruct.append ((serves_stage hlen64 e).append hpack)).append
    (hunpack.append (serves_readOut hlegal.fst_le g))
  obtain ⟨t, hrun, -, hwait, -, hresp⟩ := hserves s rest rfl hinputs
  rw [hback, ← List.append_assoc _ [_], ← List.append_assoc] at hresp
  exact ⟨t, _, hrun, hwait, by simp [hlen], hresp⟩

/-- Settles O52: the values staged are in PACK's range, so UNPACK restores them. -/
theorem hostPackThenUnpackReturnsValues : Obligations.HostPackThenUnpackReturnsValues := by
  rintro s d b xs rest hlegal rfl hxs
  obtain ⟨cs, hcs, hruns⟩ := runs_roundTrip hlegal rfl fun e h =>
    lanesReturn_pack_unpack (h.staged xs) (h.lanesInRange_staged hxs)
  exact ⟨cs, _, hcs, if_pos hlegal.fst_le, hruns⟩

/-- The patterns of values in the signed range, staged, are lanes in SPACK's range. -/
theorem Engine.Configured.lanesInSignedRange_staged {e : Engine} {d b : Nat} (h : e.Configured d b) {vs : List Int}
    (hvs : ∀ v ∈ vs, -(2 ^ (b - 1) : Int) < v ∧ v < (2 ^ (b - 1) : Int)) :
    (e.staged (vs.map tc64)).LanesInSignedRange (vs.map tc64).length := by
  obtain ⟨hlegal, -, -, rfl, -⟩ := h
  refine fun k hk => e.forall_lane_staged
    (p := fun x => -(2 ^ (e.b.toNat - 1) : Int) < x.toInt ∧ x.toInt < 2 ^ (e.b.toNat - 1)) (fun x hx => ?_) hk
  obtain ⟨v, hv, rfl⟩ := List.mem_map.mp hx
  have hmag := natAbs_lt_two_pow_iff.mpr (hvs v hv)
  rw [toInt_tc64 (hmag.trans_le (two_pow_pred_le hlegal.snd_le))]
  exact hvs v hv

/-- Settles O53: the values staged are in SPACK's range, so SUNPACK restores them. -/
theorem hostSpackThenSunpackReturnsValues : Obligations.HostSpackThenSunpackReturnsValues := by
  intro s d b vs rest hlegal hlen hvs
  obtain rfl : (vs.map tc64).length = d := by rw [List.length_map, hlen]
  obtain ⟨cs, hcs, hruns⟩ := runs_roundTrip hlegal rfl fun e h =>
    lanesReturn_spack_sunpack (h.staged (vs.map tc64)) (h.lanesInSignedRange_staged hvs)
  rw [List.map_map] at hruns
  exact ⟨cs, _, hcs, if_pos hlegal.fst_le, hruns⟩

end Sys2Proof.Machine
end

section
/-! R69 and R136: packv and spackv stage their arguments, in whatever order, and end as the command they stand for. -/

namespace Sys2Proof.Machine

theorem mapM_eq_some_map {α β : Type} {f : α → Option β} {g : α → β} {l : List α} (h : ∀ x ∈ l, f x = some (g x)) :
    l.mapM f = some (l.map g) := by
  induction l with
  | nil => rfl
  | cons x l ih =>
    obtain ⟨hx, hl⟩ := List.forall_mem_cons.mp h
    rw [List.mapM_cons, hx, ih hl]
    rfl

theorem asmSetv_of_lt {j : Nat} {v : Int} (hj : j < 64) (hv : -(2 ^ 63) ≤ v ∧ v < 2 ^ 64) :
    asmSetv j v = some ⟨commandWord Opcode.setv.byte (BitVec.ofNat 8 j) 0, tc64 v⟩ := by
  rw [asmSetv, asmData, if_pos hv]
  exact asmRequest_of_lt Opcode.setv.byte (by omega) (by decide) (tc64 v)

/-- A pseudo-instruction expands to the staging of its arguments and the command with their count (R69). -/
theorem asmStaged_eq {vs : List Int} (hlen : vs.length ≤ 64) (hvs : ∀ v ∈ vs, -(2 ^ 63) ≤ v ∧ v < 2 ^ 64) (op : Byte) :
    asmStaged op.toNat vs = some (stage (vs.map tc64) ++ [⟨commandWord op (countByte (vs.map tc64).length) 0, 0⟩]) := by
  have hstage : (vs.zipIdx.mapM fun p => asmSetv p.2 p.1) = some (stage (vs.map tc64)) := by
    rw [stage, List.zipIdx_map, List.map_map]
    refine mapM_eq_some_map fun p hp => asmSetv_of_lt ?_ (hvs _ (List.fst_mem_of_mem_zipIdx hp))
    exact (List.snd_lt_of_mem_zipIdx hp).trans_le (by simpa using hlen)
  rw [asmStaged, if_pos hlen, hstage, asmRequest_of_lt op (by omega) (by decide), List.length_map]
  rfl

/-- Lanes staged in any order, then a command: the run ends as the command does on the staged engine (R136). -/
theorem exists_runs_staged {s : State} {xs : List Data} {order : List (Data × Nat)} {rest : List Input} {i : Instr}
    (hlen : xs.length ≤ 64) (hperm : order.Perm xs.zipIdx) (hlegal : decode (encode i) = .legal i)
    (hinputs : s.inputs = asInputs (setvRequests order) ++ .request (requestOf i 0) :: rest) :
    ∃ t, Runs (xs.length + 1) s t ∧
      exec i { s with engine := s.engine.staged xs, inputs := rest, wdata := 0,
                      responses := s.responses ++ List.replicate xs.length ⟨.ok, 0⟩ } = .next t := by
  obtain ⟨t, hrun, hengine, hwait, hresets, hresp⟩ := serves_setvRequests hlen hperm s.engine s _ rfl hinputs
  have hlength : (setvRequests order).length = xs.length := by
    rw [setvRequests, List.length_map, hperm.length_eq, List.length_zipIdx]
  have haccept : t.accept 0 rest =
      { s with engine := s.engine.staged xs, inputs := rest, wdata := 0,
               responses := s.responses ++ List.replicate xs.length ⟨.ok, 0⟩ } := by
    rw [State.accept, hengine, hresets, hresp]
  obtain ⟨e, st, x, hexec, -⟩ := exec_answersAs i (t.accept 0 rest)
  rw [← haccept, ← hlength]
  exact ⟨_, runs_append hrun (runs_one ((step_requestOf hwait hlegal).trans hexec)), hexec⟩

/-- Settles O55: the expansion is the host's sequence, and staging works in any order. -/
theorem packvStagesThenPacks : Obligations.PackvStagesThenPacks := by
  refine ⟨fun vs hlen hvs => ?expansion, fun s xs order rest i hlen hperm hi hinputs => ?order⟩
  case expansion =>
    have hlen' : (vs.map tc64).length ≤ 64 := by rwa [List.length_map]
    rw [packSequence, spackSequence, if_pos hlen', if_pos hlen']
    exact ⟨asmStaged_eq hlen hvs Opcode.pack.byte, rfl, asmStaged_eq hlen hvs Opcode.spack.byte, rfl⟩
  case order =>
    have hcount := (toNat_countByte hlen).trans_le hlen
    have hlegal : decode (encode i) = .legal i := by
      obtain rfl | rfl := hi
      · exact decode_encode_pack hcount
      · exact decode_encode_spack hcount
    exact exists_runs_staged hlen hperm hlegal hinputs

end Sys2Proof.Machine
end
